-- ==== Sys2Proof/Word.lean ====
section
/-! DEFINITION. The value types of the spec (00_scope.md R5, R10): a byte, a 16-bit value, a device identity. -/

namespace Sys2Proof

/-- A byte: an unsigned 8-bit value (R10). -/
abbrev Byte := BitVec 8

/-- `u16`: an unsigned 16-bit value (R10). -/
abbrev U16 := BitVec 16

/-- A device identity of `IDENT_BITS` = 48 bits (R5, R22). Only equality of identities is ever used. -/
abbrev Ident := BitVec 48

end Sys2Proof
end

