-- ==== Sys2Proof/Config.lean ====
section
/-! DEFINITION. The configuration of the block (00_scope.md R5 to R8): the parameters fixed when it is built.
No operation changes a configuration. The step has no argument for it, so State carries one (log entry 1) and every
statement about all states is a statement about all configurations. -/

namespace Sys2Proof

/-- `CRC_MODE` (R5, R8). -/
inductive CrcMode where
  /-- `NONE`: a frame is its body. -/
  | none
  /-- `MODBUS_RTU`: a frame is its body followed by two CRC bytes. -/
  | modbusRtu
deriving DecidableEq, Repr

/-- The OPEN parameters of R5. -/
structure Config where
  /-- `SLAVE_ADDR` -/
  slaveAddr : Byte
  /-- `DATA_LEN`, the number of data bytes of a device record -/
  dataLen : Nat
  /-- `MAX_DEVICES`, the capacity of the device table -/
  maxDevices : Nat
  /-- `CRC_MODE` -/
  crcMode : CrcMode
  /-- `CONFORMITY_LEVEL` -/
  conformityLevel : Byte
  /-- `VENDOR_NAME` -/
  vendorName : List Byte
  /-- `PRODUCT_CODE` -/
  productCode : List Byte
  /-- `REVISION` -/
  revision : List Byte
  /-- `RESP_BUF_LEN`, in bytes, counting the CRC when present -/
  respBufLen : Nat
  /-- `INDICATOR_TYPE_BYTE`, a parameter of the discovery collaborator (R34) -/
  indicatorTypeByte : Byte
deriving DecidableEq, Repr

/-- `MAX_REGS_QUANTITY` = 0x7B, the largest register count per request (R5). -/
def maxRegsQuantity : Nat := 0x7B

/-- `OBJECTS_NUMBER` = 3, the number of identification objects (R5). -/
def objectsNumber : Nat := 3

/-- `B = 1 + DATA_LEN`, the number of registers of one device block (R60, R121). -/
def Config.blockSize (cfg : Config) : Nat := 1 + cfg.dataLen

/-- The parameter set `EX` of R7, with `CRC_MODE` = `NONE`. R7 gives no `INDICATOR_TYPE_BYTE`; 0x00 here is a
DESIGN CHOICE (log entry 1). -/
def Config.ex : Config where
  slaveAddr := 0x11
  dataLen := 7
  maxDevices := 4
  crcMode := .none
  conformityLevel := 0x01
  vendorName := [0x56, 0x4E, 0x44]
  productCode := [0x50, 0x31]
  revision := [0x31, 0x2E, 0x30]
  respBufLen := 256
  indicatorTypeByte := 0x00

/-- `EX` with `CRC_MODE` = `MODBUS_RTU` (R7). -/
def Config.exRtu : Config := { Config.ex with crcMode := .modbusRtu }

end Sys2Proof
end

