-- ==== Sys2Proof/Machine/Operands.lean ====
section
/-! DEFINITION. Operand assembly and byte order (00_scope.md R10, R11; 20_memory.md R52; 30_encoding.md R78). Every
operand is unsigned; every 16-bit field is big-endian. -/

namespace Sys2Proof.Machine

/-- `be16(hi, lo) = hi*256 + lo`: a big-endian 16-bit field from two bytes in wire order (R11). -/
def be16 (hi lo : Byte) : U16 := hi ++ lo

/-- `v[15:8]`. -/
def highByte (v : U16) : Byte := v.extractLsb' 8 8

/-- `v[7:0]`. -/
def lowByte (v : U16) : Byte := v.extractLsb' 0 8

/-- `split16(v) = [v[15:8], v[7:0]]`: a 16-bit value, high byte first (R11, R233). -/
def split16 (v : U16) : List Byte := [highByte v, lowByte v]

/-- `zext_16(b)`: a byte as a 16-bit value (R10). -/
def zext16 (b : Byte) : U16 := b.setWidth 16

/-- The register values of a WRITE payload, `value_i = be16(F[7+2i], F[8+2i])` (R78). A last odd byte names no value; R158
admits no payload of odd length. -/
def be16s : List Byte → List U16
  | hi :: lo :: rest => be16 hi lo :: be16s rest
  | _ => []

/-- Register values as payload bytes, in address order (R80, R86). -/
def split16s : List U16 → List Byte
  | [] => []
  | v :: vs => split16 v ++ split16s vs

end Sys2Proof.Machine
end

