-- ==== Sys2Proof/Machine/Crc.lean ====
section
/-! DEFINITION. The CRC-16 of `CRC_MODE` = `MODBUS_RTU` and the framing it adds (00_scope.md R8, R15; 30_encoding.md R71;
42_frame_validator.md R151; 44_response_builder.md R232). -/

namespace Sys2Proof.Machine

/-- One of the eight shifts R15 repeats for a byte. -/
def crcShift (c : U16) : U16 :=
  if c.getLsbD 0 then (c >>> 1) ^^^ 0xA001#16 else c >>> 1

/-- `n` shifts. -/
def crcShifts : Nat → U16 → U16
  | 0, c => c
  | n + 1, c => crcShifts n (crcShift c)

/-- The CRC after the bytes given, from the value `c` (the loop of R15). -/
def crcFrom (c : U16) : List Byte → U16
  | [] => c
  | b :: bs => crcFrom (crcShifts 8 (c ^^^ zext16 b)) bs

/-- `crc16(bytes)` (R15). -/
def crc16 (bytes : List Byte) : U16 := crcFrom 0xFFFF bytes

/-- `crc_bytes(bytes)`: the CRC, low byte first on the wire (R15). -/
def crcBytes (bytes : List Byte) : List Byte := [lowByte (crc16 bytes), highByte (crc16 bytes)]

/-- A body as a frame (R71); for responses this is `frame_out` (R232). -/
def frameOut (cfg : Config) (body : List Byte) : List Byte :=
  match cfg.crcMode with
  | .none => body
  | .modbusRtu => body ++ crcBytes body

/-- Stage 0 of the validator (R150, R151): the body of a frame, or nothing where the frame is shorter than its CRC or the
CRC does not match. -/
def stripCrc (cfg : Config) (frame : List Byte) : Option (List Byte) :=
  match cfg.crcMode with
  | .none => some frame
  | .modbusRtu =>
    if frame.length < 2 then none
    else
      match frame.drop (frame.length - 2) with
      | [lo, hi] =>
        if be16 hi lo = crc16 (frame.take (frame.length - 2)) then some (frame.take (frame.length - 2)) else none
      | _ => none

end Sys2Proof.Machine
end

