-- ==== Sys2Proof/Syntax.lean ====
section
/-! DEFINITION. The instructions of the block: one constructor per row of spec/opcode_table.json. The first four are the
requests a frame can carry once it has passed the validator (10_state.md R36, 42_frame_validator.md R159); the last three
are the commands of ports D and RST (10_state.md R33, R35), which have no byte encoding. -/

namespace Sys2Proof

inductive Instr where
  /-- READ, function 0x03 (R74, R182). -/
  | read (start qty : U16)
  /-- WRITE, function 0x10 (R75, R186): the `values` are the register values `value_0 .. value_(qty-1)` of R78. -/
  | write (start qty : U16) (byteCount : Byte) (values : List U16)
  /-- IDENTIFY, function 0x2B (R76, R200). -/
  | identify (meiType accessType objectId : Byte)
  /-- UNSUPPORTED: a request with any other function byte (R77, R156). -/
  | unsupported (fc : Byte)
  /-- APPEND_OR_UPDATE, a port D command (R101). -/
  | appendOrUpdate (identity : Ident) (typ : Byte) (data : List Byte)
  /-- CLEAR, a port D command (R104). -/
  | clear
  /-- RESET, the port RST (R280). -/
  | reset
deriving DecidableEq, Repr

end Sys2Proof
end

