-- ==== Sys2Proof/WellFormed.lean ====
section
/-! DEFINITION. Which configurations and which instructions have a meaning: the constraints of 00_scope.md R5 and R6, and
the shape of an instruction's operands (42_frame_validator.md R155, R158; 40_device_table.md R107). -/

namespace Sys2Proof

/-- The constraints of R6, with the ranges the table of R5 gives (`MAX_DEVICES >= 1`; each identification string at most
255 bytes). "A configuration that breaks one of them is refused: the model gives it no meaning" (log entry 7). -/
def Config.valid (cfg : Config) : Bool :=
  decide (cfg.maxDevices * (1 + cfg.dataLen) ≤ 0xFFFF) &&
  decide (cfg.maxDevices ≤ 0xFFFF) &&
  decide (1 ≤ cfg.dataLen) &&
  decide (8 ≤ cfg.respBufLen) &&
  decide (1 ≤ cfg.maxDevices) &&
  decide (cfg.vendorName.length ≤ 255) &&
  decide (cfg.productCode.length ≤ 255) &&
  decide (cfg.revision.length ≤ 255)

/-- The three function bytes the block supports (R155). -/
def supportedFunction (fc : Byte) : Bool := fc == 0x03 || fc == 0x10 || fc == 0x2B

/-- An instruction is well formed when its operands have the shape the validator and port D give them: a WRITE carries
`qty` values and `byteCount = 2*qty` (R158); UNSUPPORTED carries a function byte that is not supported (R156); an
AppendOrUpdate carries exactly `DATA_LEN` data bytes (R107). -/
def Instr.wf (cfg : Config) : Instr → Bool
  | .read _ _ => true
  | .write _ qty byteCount values =>
    decide (byteCount.toNat = 2 * qty.toNat) && decide (values.length = qty.toNat)
  | .identify _ _ _ => true
  | .unsupported fc => !supportedFunction fc
  | .appendOrUpdate _ _ data => decide (data.length = cfg.dataLen)
  | .clear => true
  | .reset => true

end Sys2Proof
end

