-- ==== Sys2Proof/Decode.lean ====
section
/-! DEFINITION. The frame validator (42_frame_validator.md R150 to R160) as the decoder: total on any bytes, its outcome a
named discard, a BadLength exception, or a request. After it the encoder, written from 30_encoding.md R71, R74 to R77 and
the notation of R86, and the pseudo-requests of R87. -/

namespace Sys2Proof
open Machine

/-- Why a frame is discarded silently (R151 to R154). -/
inductive DiscardReason where
  /-- The frame is shorter than its CRC, or the CRC does not match (R151). -/
  | crcMismatch
  /-- The body is empty or holds one byte (R152). -/
  | tooShort
  /-- `F[0]` is not `SLAVE_ADDR` (R153). -/
  | addressMismatch
deriving DecidableEq, Repr

/-- The three ways the validator ends: a silent discard; an exception 0x03 for a wrong shape of function `fc` (R157, R158);
a request for the dispatcher (R159; an unsupported function byte is the request UNSUPPORTED, R156). -/
inductive Verdict where
  | discard (why : DiscardReason)
  | badShape (fc : Byte)
  | request (i : Instr)
deriving DecidableEq, Repr

/-- The shape check and operands of RQ_READ after the function byte (R74, R157): six bytes, the last two ignored. -/
def decodeRead : List Byte → Option Instr
  | [s1, s0, q1, q0, _, _] => some (.read (be16 s1 s0) (be16 q1 q0))
  | _ => none

/-- The shape check and operands of RQ_ID after the function byte (R76, R157): six bytes, the last three ignored. -/
def decodeIdentify : List Byte → Option Instr
  | [m, a, o, _, _, _] => some (.identify m a o)
  | _ => none

/-- The shape check and operands of RQ_WRITE after the function byte (R75, R158): the byte count is there, equals the
number of data bytes received, and equals `2*qty`. -/
def decodeWrite : List Byte → Option Instr
  | s1 :: s0 :: q1 :: q0 :: n :: data =>
    if data.length = n.toNat then
      if n.toNat = 2 * (be16 q1 q0).toNat then some (.write (be16 s1 s0) (be16 q1 q0) n (be16s data)) else none
    else none
  | _ => none

/-- Stages 2 and 3 of R150, on the bytes after the function byte. -/
def decodeFunction (fc : Byte) (rest : List Byte) : Verdict :=
  if fc = 0x03 then (decodeRead rest).elim (.badShape fc) .request
  else if fc = 0x10 then (decodeWrite rest).elim (.badShape fc) .request
  else if fc = 0x2B then (decodeIdentify rest).elim (.badShape fc) .request
  else .request (.unsupported fc)

/-- Stages 1 to 3 of R150, on a body. -/
def decodeBody (cfg : Config) : List Byte → Verdict
  | [] => .discard .tooShort
  | addr :: rest =>
    if addr ≠ cfg.slaveAddr then .discard .addressMismatch
    else
      match rest with
      | [] => .discard .tooShort
      | fc :: operands => decodeFunction fc operands

/-- `validate(F)` (R150). -/
def decodeFrame (cfg : Config) (frame : List Byte) : Verdict :=
  match stripCrc cfg frame with
  | none => .discard .crcMismatch
  | some body => decodeBody cfg body

/-- The request body of an instruction (R74 to R77, R86); the commands of ports D and RST have none. Reserved request bytes
are 0x00, as R86 writes them. -/
def encodeBody (cfg : Config) : Instr → Option (List Byte)
  | .read start qty => some ([cfg.slaveAddr, 0x03] ++ split16 start ++ split16 qty ++ [0x00, 0x00])
  | .write start qty byteCount values =>
    some ([cfg.slaveAddr, 0x10] ++ split16 start ++ split16 qty ++ [byteCount] ++ split16s values)
  | .identify meiType accessType objectId =>
    some [cfg.slaveAddr, 0x2B, meiType, accessType, objectId, 0x00, 0x00, 0x00]
  | .unsupported fc => some [cfg.slaveAddr, fc]
  | .appendOrUpdate _ _ _ => none
  | .clear => none
  | .reset => none

/-- The frame of an instruction: its body, with its CRC where `CRC_MODE` asks for one (R71). -/
def encode (cfg : Config) (i : Instr) : Option (List Byte) := (encodeBody cfg i).map (frameOut cfg)

/-- The pseudo-request READCOUNT (R87). -/
def readCount : Instr := .read 0 1

/-- The pseudo-request READDEV `k` (R87). -/
def readDev (cfg : Config) (k : Nat) : Instr :=
  .read (BitVec.ofNat 16 (1 + k * (1 + cfg.dataLen))) (BitVec.ofNat 16 (1 + cfg.dataLen))

/-- Byte `n` of a number, counted from its least significant byte. -/
def byteOfWord (w n : Nat) : Byte := BitVec.ofNat 8 (w >>> (8 * n))

/-- The low `n` bytes of a number from byte `at_`, in order. -/
def bytesOfWord (w : Nat) : Nat → Nat → List Byte
  | _, 0 => []
  | at_, n + 1 => byteOfWord w at_ :: bytesOfWord w (at_ + 1) n

/-- How many bytes follow the function byte of a table row's instruction (R72): six for 0x03 and 0x2B; the five header
bytes and `byteCount` data bytes for 0x10; for any other function as many as the word gives. -/
def operandLength (nbits w : Nat) : Nat :=
  if byteOfWord w 0 = 0x03 then 6
  else if byteOfWord w 0 = 0x10 then 5 + (byteOfWord w 5).toNat
  else if byteOfWord w 0 = 0x2B then 6
  else nbits / 8 - 1

/-- The frame of a table word. The table's bit 0 is the least significant bit of body byte 1, the function code (its
"match_on"), so the word starts at `F[1]`; the address byte before it is `SLAVE_ADDR`, every bit above `nbits` is 0, and
the frame carries its CRC where `CRC_MODE` asks for one. -/
def frameOfTableWord (cfg : Config) (nbits w : Nat) : List Byte :=
  let v := w % 2 ^ nbits
  frameOut cfg (cfg.slaveAddr :: byteOfWord v 0 :: bytesOfWord v 1 (operandLength nbits v))

/-- The instruction the decoder reads from a table word, under the parameter set `EX` (no field of the instruction depends
on the configuration). -/
def decodeTableWord (nbits w : Nat) : Option Instr :=
  match decodeFrame Config.ex (frameOfTableWord Config.ex nbits w) with
  | .request i => some i
  | _ => none

end Sys2Proof
end

