-- ==== Sys2Proof/Machine/State.lean ====
section
/-! DEFINITION. The state of the block (10_state.md R20 to R38): the device table and the sequencer phase; and beside them
what the fixed form of the step makes State carry: the configuration (log entry 1), the events the agents hold and have
not yet delivered (log entry 2), and what has been taken and answered so far (log entry 3). -/

namespace Sys2Proof.Machine

/-- The sequencer phase (R26). -/
inductive Phase where
  | ready | validating | reading | writing | identifying | responding
deriving DecidableEq, Repr

/-- The record of a populated slot (R22): the identity, the type byte, the data bytes. -/
structure Slot where
  ident : Ident
  typ : Byte
  data : List Byte
deriving DecidableEq, Repr

/-- The device table (R21, R22). `slots` is the arena of `MAX_DEVICES` slots; `none` is a slot that holds no value (R24). -/
structure DeviceTable where
  count : Nat
  slots : List (Option Slot)
deriving DecidableEq, Repr

/-- What agents T and D deliver (R9, R32, R33). -/
inductive Delivery where
  /-- `Frame(F)` on port T. -/
  | frame (bytes : List Byte)
  /-- `AppendOrUpdate(identity, type, data)` on port D. -/
  | appendOrUpdate (identity : Ident) (typ : Byte) (data : List Byte)
  /-- `Clear` on port D. -/
  | clear
deriving DecidableEq, Repr

/-- An event the block takes (R9). -/
inductive Event where
  /-- A delivery whose transaction runs to its end. -/
  | delivered (d : Delivery)
  /-- `Reset` between two transactions (R57). -/
  | reset
  /-- A `Reset` that arrives while the delivery's transaction is in flight (R280). `answered` is the outcome R280 leaves
  open: whether the delivery's output was handed over before the reset (log entry 4). -/
  | cutByReset (d : Delivery) (answered : Bool)
deriving DecidableEq, Repr

/-- The result of `AppendOrUpdate` (R33, R101). -/
inductive AppendResult where
  | appended | updated | ignored
deriving DecidableEq, Repr

/-- The output of one event (R9). -/
inductive Output where
  /-- No output: a discarded frame, `Clear`, `Reset`. -/
  | nothing
  /-- The one response handed to port T. -/
  | response (bytes : List Byte)
  /-- The `AppendResult` handed to port D. -/
  | appendResult (r : AppendResult)
deriving DecidableEq, Repr

/-- The state of the block between two events. -/
structure State where
  /-- The configuration (R5); no step writes it. -/
  cfg : Config
  /-- The device table `DT` (R20 to R25). -/
  table : DeviceTable
  /-- The sequencer phase (R26). -/
  phase : Phase
  /-- The events the agents hold and have not yet delivered, in the order they will be taken (R31, R57). -/
  pending : List Event
  /-- The events taken so far, oldest first (R291). -/
  taken : List Event
  /-- The output of each event taken, oldest first (R9, R291). -/
  outputs : List Output
deriving DecidableEq, Repr

/-- Why the machine stops with a fault. -/
inductive Fault where
  /-- `read(k)` of a slot that holds no value (R24, R105, U1). Raised by a register read and by the identity search, only
  from a state whose table is ill formed. Safe: the model stops where the spec gives no value. -/
  | unpopulatedSlot
  /-- A data register whose byte the record lacks, because its data block is shorter than `DATA_LEN`. Raised by a register
  read, only from a state whose table is ill formed (R22 fixes the length). Safe: the model stops. -/
  | missingDataByte
deriving DecidableEq, Repr

/-- Why an instruction is refused. -/
inductive Refusal where
  /-- The instruction has no meaning yet. Raised by an arm of exec. Safe: the model stops. -/
  | notModelled (mnemonic : String)
  /-- The configuration breaks a constraint of R6 or a range of R5: "the model gives it no meaning". Raised by every
  instruction and by the step. Safe: the model stops where the spec gives no meaning. -/
  | invalidConfiguration
  /-- The instruction's operands do not have the shape the validator or port D gives them: an AppendOrUpdate whose data
  block is not `DATA_LEN` bytes (R107), or a request term that no frame decodes to. Safe: the model stops where the spec
  gives no meaning. -/
  | illFormedInstruction
deriving DecidableEq, Repr

/-- What one instruction, one event or one step answers. -/
abbrev Result := Host.Outcome State Fault Refusal

/-- The empty table of a configuration (R38): the count is 0 and every slot of the arena holds no value. -/
def DeviceTable.empty (cfg : Config) : DeviceTable where
  count := 0
  slots := List.replicate cfg.maxDevices none

/-- The block of a configuration right after reset (R38, R281), with nothing delivered yet. -/
def State.resetWith (cfg : Config) : State where
  cfg := cfg
  table := DeviceTable.empty cfg
  phase := .ready
  pending := []
  taken := []
  outputs := []

/-- The machine right after reset. The spec leaves the configuration OPEN; this state carries the example set `EX`
(DESIGN CHOICE, log entry 1). `State.resetWith` is the reset state of any configuration. -/
def State.reset : State := State.resetWith Config.ex

end Sys2Proof.Machine
end

