-- ==== Sys2Proof/Machine/Flags.lean ====
section
/-! DEFINITION. The block has no status flags or condition codes (10_state.md R29). What reports a transaction's outcome in
their place is defined here: the exception codes (60_exceptions.md R250) and the mapper's errors with the codes they
become (43_dispatcher.md R181). -/

namespace Sys2Proof.Machine

/-- The exception codes of R250. -/
inductive ExceptionCode where
  | unsupportedFunction | badAddress | badLength | other
deriving DecidableEq, Repr

/-- The byte an exception response carries (R250). -/
def codeByte : ExceptionCode → Byte
  | .unsupportedFunction => 0x01
  | .badAddress => 0x02
  | .badLength => 0x03
  | .other => 0x04

/-- The errors of the register mapper (R120). -/
inductive MapError where
  | lengthError | addressError | valueError
deriving DecidableEq, Repr

/-- The exception a mapper error becomes (R181). -/
def errorCode : MapError → ExceptionCode
  | .lengthError => .badLength
  | .addressError => .badAddress
  | .valueError => .other

end Sys2Proof.Machine
end

