-- ==== Sys2Proof/Machine/Builder.lean ====
section
/-! DEFINITION. The response builder (44_response_builder.md R230 to R234; layouts of 30_encoding.md R79 to R83). It reads
the outcome and the configuration alone. -/

namespace Sys2Proof.Machine

/-- The outcome the dispatcher hands to the builder (R230). -/
inductive Reply where
  | readOk (qty : Nat) (payload : List Byte)
  | writeOk (sHi sLo qHi qLo : Byte)
  | idOk (meiType accessType conformityLevel moreFollows nextObject objectCount : Byte) (objects : List Byte)
  | exception (code : ExceptionCode)
deriving DecidableEq, Repr

/-- The body of an exception response (R83). -/
def exceptionBody (cfg : Config) (fc : Byte) (code : ExceptionCode) : List Byte :=
  [cfg.slaveAddr, fc ||| 0x80, codeByte code, 0x00, 0x00]

/-- The body of a response, before the capacity check (R80 to R83, R230). -/
def replyBody (cfg : Config) (fc : Byte) : Reply → List Byte
  | .readOk qty payload => [cfg.slaveAddr, 0x03, BitVec.ofNat 8 (2 * qty), 0x00] ++ payload
  | .writeOk sHi sLo qHi qLo => [cfg.slaveAddr, 0x10, sHi, sLo, qHi, qLo]
  | .idOk m a cl mf no n objects => [cfg.slaveAddr, 0x2B, m, a, cl, mf, no, n] ++ objects
  | .exception code => exceptionBody cfg fc code

/-- The bytes the CRC adds to a frame: two when `CRC_MODE` = `MODBUS_RTU` (R72, R231). -/
def crcLength (cfg : Config) : Nat :=
  match cfg.crcMode with
  | .none => 0
  | .modbusRtu => 2

/-- The capacity check (R231): a body that does not fit the response buffer becomes exception 0x04. -/
def capacity (cfg : Config) (fc : Byte) (body : List Byte) : List Byte :=
  if cfg.respBufLen < body.length + crcLength cfg then exceptionBody cfg fc .other else body

/-- `build(out)` (R230), for a request with function byte `fc`. -/
def build (cfg : Config) (fc : Byte) (r : Reply) : List Byte := frameOut cfg (capacity cfg fc (replyBody cfg fc r))

/-- One identification object: its id, its length and its value (R82). -/
def idObject (objectId : Byte) (value : List Byte) : List Byte :=
  [objectId, BitVec.ofNat 8 value.length] ++ value

/-- The identification objects, vendor name, product code, revision (R82, R200). -/
def idObjects (cfg : Config) : List Byte :=
  idObject 0x00 cfg.vendorName ++ idObject 0x01 cfg.productCode ++ idObject 0x02 cfg.revision

end Sys2Proof.Machine
end

