-- ==== Sys2Proof/Machine/Ops.lean ====
section
/-! DEFINITION. The named operations every transaction is made of (00_scope.md R12; 43_dispatcher.md R180): the phase and the
output of an event, handing a response to port T, taking an exception and the return from it, a silent discard, the reset
of every piece of state, and the check that an instruction has a meaning at all. -/

namespace Sys2Proof.Machine

/-- `phase <- p` (R12, R26). -/
def setPhase (p : Phase) (s : State) : State := { s with phase := p }

/-- The table takes a new value. -/
def setTable (t : DeviceTable) (s : State) : State := { s with table := t }

/-- The output of the event in progress (R9). -/
def pushOutput (o : Output) (s : State) : State := { s with outputs := s.outputs ++ [o] }

/-- The end of a transaction: the block is ready for the next event (R26, R180). It is also the whole return from an
exception, which restores nothing (R257). -/
def endTransaction (s : State) : State := setPhase .ready s

/-- The responding stage of R180: build the response, hand it to port T, return to `Ready`. -/
def respond (fc : Byte) (r : Reply) (s : State) : State :=
  endTransaction (pushOutput (.response (build s.cfg fc r)) (setPhase .responding s))

/-- `raise Exception(code)` while handling a request with function byte `fc` (R255): the exception response is the frame's
one output, nothing is saved and nothing else is written, and the transaction ends. -/
def raiseException (fc : Byte) (code : ExceptionCode) (s : State) : State :=
  endTransaction (pushOutput (.response (build s.cfg fc (.exception code))) s)

/-- `discard` (R12, R154): no output, no change of state except the phase, which returns to `Ready`. -/
def discardFrame (s : State) : State := endTransaction (pushOutput .nothing s)

/-- Every piece of state takes its reset value; the configuration is unchanged (R38, R280). -/
def resetState (s : State) : State := { s with table := DeviceTable.empty s.cfg, phase := .ready }

/-- An instruction runs only under a configuration R6 admits and only when it is well formed (R6, R107). -/
def guarded (i : Instr) (s : State) (run : Result) : Result :=
  if s.cfg.valid then
    if i.wf s.cfg then run else .refused .illFormedInstruction
  else .refused .invalidConfiguration

end Sys2Proof.Machine
end

