-- ==== Sys2Proof/Machine/Table.lean ====
section
/-! DEFINITION. The device table's operations (40_device_table.md R100 to R107): the internal accessors `read` and
`write_data`, and what AppendOrUpdate and Clear do to the table. -/

namespace Sys2Proof.Machine

/-- `read(k)` (R105): the record of slot `k`, or the fault where `k` is not below the count or the slot holds no value. -/
def readSlot (t : DeviceTable) (k : Nat) : Except Fault Slot :=
  if k < t.count then
    match t.slots[k]? with
    | some (some sl) => .ok sl
    | _ => .error .unpopulatedSlot
  else .error .unpopulatedSlot

/-- Slot `k` takes the record `sl`. -/
def putSlot (t : DeviceTable) (k : Nat) (sl : Slot) : DeviceTable := { t with slots := t.slots.set k (some sl) }

/-- The bytes of `data` with `bytes` written from `offset` on. -/
def overwrite (data : List Byte) (offset : Nat) : List Byte → List Byte
  | [] => data
  | b :: bs => overwrite (data.set offset b) (offset + 1) bs

/-- `write_data(k, offset, bytes)` (R106): the data bytes of slot `k` from `offset` on. Where a precondition fails the call
is rejected and nothing is written. -/
def writeData (cfg : Config) (t : DeviceTable) (k offset : Nat) (bytes : List Byte) : DeviceTable :=
  if offset + bytes.length ≤ cfg.dataLen then
    match readSlot t k with
    | .ok sl => putSlot t k { sl with data := overwrite sl.data offset bytes }
    | .error _ => t
  else t

/-- The identity search of R101 and R102, over the slots from `k` on, `n` of them: the first slot whose identity is the one
given. -/
def findIdent (t : DeviceTable) (identity : Ident) : Nat → Nat → Except Fault (Option Nat)
  | _, 0 => .ok none
  | k, n + 1 =>
    match readSlot t k with
    | .error f => .error f
    | .ok sl => if sl.ident = identity then .ok (some k) else findIdent t identity (k + 1) n

/-- `AppendOrUpdate` on the table (R101). -/
def tableAppendOrUpdate (cfg : Config) (t : DeviceTable) (identity : Ident) (typ : Byte) (data : List Byte) :
    Except Fault (DeviceTable × AppendResult) :=
  match findIdent t identity 0 t.count with
  | .error f => .error f
  | .ok (some k) => .ok (putSlot t k ⟨identity, typ, data⟩, .updated)
  | .ok none =>
    if t.count < cfg.maxDevices then
      .ok ({ putSlot t t.count ⟨identity, typ, data⟩ with count := t.count + 1 }, .appended)
    else .ok (t, .ignored)

/-- `Clear` on the table (R104): the count is 0 and every slot holds no value. -/
def tableClear (t : DeviceTable) : DeviceTable where
  count := 0
  slots := t.slots.map fun _ => none

end Sys2Proof.Machine
end

