-- ==== Sys2Proof/Machine/Commands.lean ====
section
/-! DEFINITION. The meanings of the commands of port D and of port RST (40_device_table.md R101, R104;
70_reset_and_hazards.md R280), and the discovery collaborator's translation of advertisements (10_state.md R34). -/

namespace Sys2Proof.Machine

/-- APPEND_OR_UPDATE (R101): the table operation, its `AppendResult` handed to port D. -/
def execAppendOrUpdate (identity : Ident) (typ : Byte) (data : List Byte) (s : State) : Result :=
  guarded (.appendOrUpdate identity typ data) s <|
    match tableAppendOrUpdate s.cfg s.table identity typ data with
    | .ok (t, r) => .next (pushOutput (.appendResult r) (setTable t s))
    | .error f => .fault f

/-- CLEAR (R104). -/
def execClear (s : State) : Result :=
  guarded .clear s (.next (pushOutput .nothing (setTable (tableClear s.table) s)))

/-- RESET (R280): every piece of state at its reset value, no output. -/
def execReset (s : State) : Result :=
  guarded .reset s (.next (pushOutput .nothing (resetState s)))

/-- `onSensorAdvertisement(identity, sensorType, sensorData)` as a port D command (R34). -/
def sensorAdvertisement (identity : Ident) (sensorType : Byte) (sensorData : List Byte) : Delivery :=
  .appendOrUpdate identity sensorType sensorData

/-- `onIndicatorAdvertisement(identity, indicatorState)` as a port D command (R34): the type byte is
`INDICATOR_TYPE_BYTE`, the data block the state followed by zeros. -/
def indicatorAdvertisement (cfg : Config) (identity : Ident) (indicatorState : Byte) : Delivery :=
  .appendOrUpdate identity cfg.indicatorTypeByte (indicatorState :: List.replicate (cfg.dataLen - 1) 0x00)

/-- `resetDiscoveredList()` as a port D command (R34). -/
def resetDiscoveredList : Delivery := .clear

end Sys2Proof.Machine
end

