-- ==== Sys2Proof/Machine/Mapper.lean ====
section
/-! DEFINITION. The register mapper (41_register_mapper.md R120 to R132): the register address space as a view of the device
table (20_memory.md R60). All arithmetic is on naturals, with no wrap-around (R10, R131). -/

namespace Sys2Proof.Machine

/-- The field a register address names (R121). -/
inductive Field where
  | count
  | type (k : Nat)
  | data (k j : Nat)
deriving DecidableEq, Repr

/-- `decode(a)` (R121). -/
def decodeAddr (cfg : Config) (a : Nat) : Field :=
  if a = 0 then .count
  else if (a - 1) % cfg.blockSize = 0 then .type ((a - 1) / cfg.blockSize)
  else .data ((a - 1) / cfg.blockSize) ((a - 1) % cfg.blockSize - 1)

/-- The address of a field: the inverse of `decode` (R132). -/
def addrOf (cfg : Config) : Field → Nat
  | .count => 0
  | .type k => 1 + k * cfg.blockSize
  | .data k j => 2 + k * cfg.blockSize + j

/-- `TOP = DT.count * B`, the highest allocated register address (R122). -/
def top (cfg : Config) (t : DeviceTable) : Nat := t.count * cfg.blockSize

/-- The quantity check of R124 fails: no register, or more than `MAX_REGS_QUANTITY`. -/
def quantityBad (qty : Nat) : Bool := decide (qty = 0) || decide (maxRegsQuantity < qty)

/-- The range check of R123 fails: the range does not end at or below `TOP`. -/
def rangeBad (cfg : Config) (t : DeviceTable) (start qty : Nat) : Bool := decide (top cfg t < start + qty - 1)

/-- A register the master may not write: register 0 or a type register (R25, R60, R127). -/
def readOnly (cfg : Config) (a : Nat) : Bool :=
  match decodeAddr cfg a with
  | .count => true
  | .type _ => true
  | .data _ _ => false

/-- The result of a mapper pass (R120); `fault` is the fault of a table access that R123 rules out. -/
inductive MapResult (α : Type) where
  | ok (a : α)
  | error (e : MapError)
  | fault (f : Fault)
deriving DecidableEq, Repr

/-- `RegRead(a)` (R126). -/
def regRead (cfg : Config) (t : DeviceTable) (a : Nat) : Except Fault U16 :=
  match decodeAddr cfg a with
  | .count => .ok (BitVec.ofNat 16 t.count)
  | .type k =>
    match readSlot t k with
    | .ok sl => .ok (zext16 sl.typ)
    | .error f => .error f
  | .data k j =>
    match readSlot t k with
    | .ok sl =>
      match sl.data[j]? with
      | some b => .ok (zext16 b)
      | none => .error .missingDataByte
    | .error f => .error f

/-- `RegRead` of `n` registers from address `a` on, in address order (R125). -/
def regsRead (cfg : Config) (t : DeviceTable) : Nat → Nat → Except Fault (List U16)
  | _, 0 => .ok []
  | a, n + 1 =>
    match regRead cfg t a with
    | .error f => .error f
    | .ok v =>
      match regsRead cfg t (a + 1) n with
      | .error f => .error f
      | .ok vs => .ok (v :: vs)

/-- `map(Read, DT, start, qty)` (R125). -/
def mapRead (cfg : Config) (t : DeviceTable) (start qty : Nat) : MapResult (List U16) :=
  if quantityBad qty then .error .lengthError
  else if rangeBad cfg t start qty then .error .addressError
  else
    match regsRead cfg t start qty with
    | .ok vs => .ok vs
    | .error f => .fault f

/-- The registers `start .. start+qty-1` of a request (R78), as addresses. -/
def addresses (start qty : Nat) : List Nat := List.range' start qty

/-- `map(Write, DT, start, qty)` (R127): the field references of a write that passes every check. -/
def mapWrite (cfg : Config) (t : DeviceTable) (start qty : Nat) (values : List U16) : MapResult (List Field) :=
  if quantityBad qty then .error .lengthError
  else if rangeBad cfg t start qty then .error .addressError
  else if (addresses start qty).any (readOnly cfg) then .error .addressError
  else if values.any fun v => highByte v != 0 then .error .valueError
  else .ok ((addresses start qty).map (decodeAddr cfg))

/-- `RegWrite` on a field reference (R128): one data byte. Only a data register is written. -/
def fieldWrite (cfg : Config) (t : DeviceTable) (f : Field) (b : Byte) : DeviceTable :=
  match f with
  | .data k j => writeData cfg t k j [b]
  | .type _ => t
  | .count => t

/-- The commit of a write (R128, R186): each field reference takes the low byte of its value, in ascending address
order. -/
def commit (cfg : Config) (t : DeviceTable) : List Field → List U16 → DeviceTable
  | f :: fs, v :: vs => commit cfg (fieldWrite cfg t f (lowByte v)) fs vs
  | _, _ => t

end Sys2Proof.Machine
end

