-- ==== Sys2Proof/Machine/Requests.lean ====
section
/-! DEFINITION. The meanings of the four requests a frame can carry (43_dispatcher.md R180 to R205; 42_frame_validator.md
R156): READ, WRITE, IDENTIFY and UNSUPPORTED. -/

namespace Sys2Proof.Machine

/-- READ (R182): `qty` registers from `start`, or exception 0x03 or 0x02. It writes no table state. -/
def execRead (start qty : U16) (s : State) : Result :=
  guarded (.read start qty) s <|
    let s := setPhase .reading s
    match mapRead s.cfg s.table start.toNat qty.toNat with
    | .ok regs => .next (respond 0x03 (.readOk qty.toNat (split16s regs)) s)
    | .error e => .next (raiseException 0x03 (errorCode e) s)
    | .fault f => .fault f

/-- WRITE (R186): every check, then every register of the range, then the echo of start and quantity; or exception 0x03,
0x02 or 0x04 with nothing written. -/
def execWrite (start qty : U16) (byteCount : Byte) (values : List U16) (s : State) : Result :=
  guarded (.write start qty byteCount values) s <|
    let s := setPhase .writing s
    match mapWrite s.cfg s.table start.toNat qty.toNat values with
    | .ok fields =>
      .next (respond 0x10 (.writeOk (highByte start) (lowByte start) (highByte qty) (lowByte qty))
        (setTable (commit s.cfg s.table fields values) s))
    | .error e => .next (raiseException 0x10 (errorCode e) s)
    | .fault f => .fault f

/-- IDENTIFY (R200): the three identification objects, `meiType` and `accessType` echoed, `objectId` without effect. -/
def execIdentify (meiType accessType objectId : Byte) (s : State) : Result :=
  guarded (.identify meiType accessType objectId) s <|
    let s := setPhase .identifying s
    .next (respond 0x2B
      (.idOk meiType accessType s.cfg.conformityLevel 0x00 0x00 (BitVec.ofNat 8 objectsNumber) (idObjects s.cfg)) s)

/-- UNSUPPORTED (R156, R251): exception 0x01. -/
def execUnsupported (fc : Byte) (s : State) : Result :=
  guarded (.unsupported fc) s (.next (raiseException fc .unsupportedFunction s))

end Sys2Proof.Machine
end

