-- ==== Sys2Proof/Machine/Dispatch.lean ====
section
/-! DEFINITION. The dispatch: one arm per row of spec/opcode_table.json. -/

namespace Sys2Proof.Machine

def exec (i : Instr) (s : State) : Host.Outcome State Fault Refusal :=
  match i with
  | .read start qty => Sys2Proof.Machine.execRead start qty s
  | .write start qty byteCount values => Sys2Proof.Machine.execWrite start qty byteCount values s
  | .identify meiType accessType objectId => Sys2Proof.Machine.execIdentify meiType accessType objectId s
  | .unsupported fc => Sys2Proof.Machine.execUnsupported fc s
  | .appendOrUpdate identity typ data => Sys2Proof.Machine.execAppendOrUpdate identity typ data s
  | .clear => Sys2Proof.Machine.execClear s
  | .reset => Sys2Proof.Machine.execReset s

end Sys2Proof.Machine
end

