-- ==== Sys2Proof/Machine/Transaction.lean ====
section
/-! DEFINITION. One event as one atomic transaction (00_scope.md R9; 20_memory.md R56; 43_dispatcher.md R180;
70_reset_and_hazards.md R280). -/

namespace Sys2Proof.Machine

/-- `Frame(F)` (R180): the validator, then the dispatcher. A discard answers nothing (R154), a wrong shape answers
exception 0x03 (R157, R158), a request runs. -/
def runFrame (bytes : List Byte) (s : State) : Result :=
  let s := setPhase .validating s
  match decodeFrame s.cfg bytes with
  | .discard _ => .next (discardFrame s)
  | .badShape fc => .next (raiseException fc .badLength s)
  | .request i => exec i s

/-- What agents T and D deliver, run to its end. -/
def runDelivery (d : Delivery) (s : State) : Result :=
  match d with
  | .frame bytes => runFrame bytes s
  | .appendOrUpdate identity typ data => exec (.appendOrUpdate identity typ data) s
  | .clear => exec .clear s

/-- A transaction a reset cuts short (R280): the delivery's output is handed over or is not; every piece of state is at its
reset value either way. -/
def cutByReset (d : Delivery) (answered : Bool) (s : State) : Result :=
  match runDelivery d s with
  | .next t => .next (resetState { t with outputs := if answered then t.outputs else s.outputs ++ [.nothing] })
  | .fault f => .fault f
  | .refused r => .refused r

/-- One event. -/
def runEvent (e : Event) (s : State) : Result :=
  match e with
  | .delivered d => runDelivery d s
  | .reset => exec .reset s
  | .cutByReset d answered => cutByReset d answered s

/-- The block takes the event `e` from the agent that held it, and `rest` stay pending (R258). -/
def takeEvent (e : Event) (rest : List Event) (s : State) : State :=
  { s with pending := rest, taken := s.taken ++ [e] }

/-- One turn of the block: the next pending event as one transaction. With no event pending the block, which is passive
(R9), does nothing. A configuration that breaks R6 has no meaning. -/
def runNext (s : State) : Result :=
  if s.cfg.valid then
    match s.pending with
    | [] => .next s
    | e :: rest => runEvent e (takeEvent e rest s)
  else .refused .invalidConfiguration

/-- `s` with a frame as the next event to take. -/
def deliverFrame (bytes : List Byte) (s : State) : State :=
  { s with pending := .delivered (.frame bytes) :: s.pending }

end Sys2Proof.Machine
end

