-- ==== Sys2Proof/Machine/Step.lean ====
section
/-! DEFINITION. The step of the machine: one event, one transaction (00_scope.md R9). -/

namespace Sys2Proof.Machine

/-- One step: `step(cfg, s, ev) = (s', out)` of R9, with `cfg` and the agents' events held in the state. -/
def step (s : State) : Host.Outcome State Fault Refusal := runNext s

/-- `s` with the frame of a table word delivered as the next event. -/
def State.withFetchWord (s : State) (nbits w : Nat) : State :=
  deliverFrame (frameOfTableWord s.cfg nbits w) s

end Sys2Proof.Machine
end

