-- ==== Sys2Proof/Safety.lean ====
section
/-! DEFINITION. What counts as a well-formed table, a good state and a safe run, and the words the statements use: the
invariant of 10_state.md R21 to R26, the events that are well formed (40_device_table.md R107), and the shapes of an
answered transaction (60_exceptions.md R255). -/

namespace Sys2Proof.Machine

/-- The record of slot `k`, where the slot holds one (R24). -/
def slotAt (t : DeviceTable) (k : Nat) : Option Slot := (t.slots[k]?).join

/-- The identity of slot `k`, where the slot holds a record. -/
def identAt (t : DeviceTable) (k : Nat) : Option Ident := (slotAt t k).map Slot.ident

/-- The type byte of slot `k`, where the slot holds a record. -/
def typAt (t : DeviceTable) (k : Nat) : Option Byte := (slotAt t k).map Slot.typ

/-- Slots `0 .. count-1` are populated and no slot at or above `count` is (R23, R24). -/
abbrev LowSlotsPopulated (t : DeviceTable) : Prop :=
  ∀ k, k < t.slots.length → ((slotAt t k).isSome = true ↔ k < t.count)

/-- Every record holds exactly `DATA_LEN` data bytes (R22). -/
abbrev RecordsShaped (cfg : Config) (t : DeviceTable) : Prop :=
  ∀ k, k < t.slots.length → (slotAt t k).all (fun sl => decide (sl.data.length = cfg.dataLen)) = true

/-- No two records share an identity (R23). -/
abbrev IdentitiesDistinct (t : DeviceTable) : Prop :=
  ∀ j, j < t.count → ∀ k, k < t.count → j ≠ k → identAt t j ≠ identAt t k

/-- The table invariant (R21 to R23): the arena has `MAX_DEVICES` slots, the count is at most that, the populated slots are
the low ones, every record has its shape, identities are distinct. -/
abbrev DeviceTable.Wf (cfg : Config) (t : DeviceTable) : Prop :=
  t.slots.length = cfg.maxDevices ∧ t.count ≤ cfg.maxDevices ∧
    LowSlotsPopulated t ∧ RecordsShaped cfg t ∧ IdentitiesDistinct t

/-- A response is at most `RESP_BUF_LEN` bytes long (R37, R231). -/
def outputFits (cfg : Config) : Output → Bool
  | .response bytes => decide (bytes.length ≤ cfg.respBufLen)
  | .nothing => true
  | .appendResult _ => true

/-- The invariant of the block between two events: the configuration has a meaning (R6), the table is well formed (R23), the
phase is `Ready` (R26), every event taken has had one output (R9, R161), every response fits the buffer (R37). -/
abbrev State.Inv (s : State) : Prop :=
  s.cfg.valid = true ∧ s.table.Wf s.cfg ∧ s.phase = .ready ∧ s.taken.length = s.outputs.length ∧
    s.outputs.all (outputFits s.cfg) = true

/-- A delivery port D admits (R107); any byte sequence is a frame (R32). -/
def Delivery.wf (cfg : Config) : Delivery → Bool
  | .frame _ => true
  | .appendOrUpdate _ _ data => decide (data.length = cfg.dataLen)
  | .clear => true

/-- An event whose delivery is well formed. -/
def Event.wf (cfg : Config) : Event → Bool
  | .delivered d => d.wf cfg
  | .reset => true
  | .cutByReset d _ => d.wf cfg

/-- Every event the agents hold is well formed. -/
abbrev State.PendingWf (s : State) : Prop := s.pending.all (Event.wf s.cfg) = true

/-- A safe run of `k` steps from `s`: no fault and no refusal, and the invariant holds where it ends. -/
def SafeRun (k : Nat) (s : State) : Prop :=
  ∃ t : State, Host.Core.run Sys2Proof.core k s = .next t ∧ t.Inv

/-- `s` after a transaction that answered the bytes given and changed nothing else (R180, R255). -/
def answered (s : State) (bytes : List Byte) : State :=
  { s with phase := .ready, outputs := s.outputs ++ [.response bytes] }

/-- The frame of an exception response: `[SLAVE_ADDR, fc | 0x80, code, 0x00, 0x00]`, with its CRC where `CRC_MODE` asks for
one (R83, R232, R255). -/
def exceptionFrame (cfg : Config) (fc code : Byte) : List Byte :=
  frameOut cfg [cfg.slaveAddr, fc ||| 0x80, code, 0x00, 0x00]

/-- `s` once its next event `e` is taken, with `rest` still pending. -/
def afterTaking (s : State) (e : Event) (rest : List Event) : State :=
  { s with pending := rest, taken := s.taken ++ [e] }

/-- The table with every identity blanked: what is left is what a master could see (R25). -/
def blankIdents (t : DeviceTable) : DeviceTable :=
  { t with slots := t.slots.map (Option.map fun sl => { sl with ident := 0 }) }

/-- Two tables that agree on the count, the size of the arena and every slot below the count (U2). -/
def AgreeBelowCount (t u : DeviceTable) : Prop :=
  t.count = u.count ∧ t.slots.length = u.slots.length ∧ t.slots.take t.count = u.slots.take u.count

end Sys2Proof.Machine
end

