-- ==== Sys2Proof/Certificates/Slice0/Obligations.lean ====
section
/-! DEFINITION. The statements for the provers. Each formalises the rules of spec/ its docstring names. Every statement
quantifies over the state, and so over every configuration (00_scope.md R5) and every order of the agents' events
(20_memory.md R57). -/

open Sys2Proof Sys2Proof.Machine

/-! ## Frames, decoding, encoding -/

/-- R15: the check values of the CRC, and the CRC of the empty sequence. -/
def Obligations.CrcCheckValues : Prop :=
  crc16 [0x31, 0x32, 0x33, 0x34, 0x35, 0x36, 0x37, 0x38, 0x39] = 0x4B37 ∧
  crc16 [0x01, 0x03, 0x00, 0x00, 0x00, 0x01] = 0x0A84 ∧
  crcBytes [0x01, 0x03, 0x00, 0x00, 0x00, 0x01] = [0x84, 0x0A] ∧
  crc16 [] = 0xFFFF

/-- R71, R151: the CRC stage lets a frame pass, with body `body`, exactly where the frame is that body (CRC_MODE = NONE) or
that body followed by its CRC, low byte first (MODBUS_RTU); every other frame fails it. -/
def Obligations.CrcStagePassesExactlyFramedBodies : Prop :=
  ∀ (cfg : Config) (frame body : List Byte),
    stripCrc cfg frame = some body ↔
      match cfg.crcMode with
      | .none => frame = body
      | .modbusRtu => frame = body ++ [lowByte (crc16 body), highByte (crc16 body)]

/-- R74 to R77, on words written out byte by byte under `EX`: one READ, WRITE, IDENTIFY and UNSUPPORTED body, and one READ
frame with its CRC. -/
def Obligations.KnownFramesDecode : Prop :=
  decodeFrame Config.ex [0x11, 0x03, 0x01, 0x02, 0x00, 0x08, 0xFF, 0xFF] = .request (.read 0x0102 0x0008) ∧
  decodeFrame Config.ex [0x11, 0x10, 0x00, 0x02, 0x00, 0x02, 0x04, 0x00, 0x0A, 0x12, 0x0B] =
    .request (.write 0x0002 0x0002 0x04 [0x000A, 0x120B]) ∧
  decodeFrame Config.ex [0x11, 0x2B, 0xAA, 0x55, 0x07, 0x01, 0x02, 0x03] = .request (.identify 0xAA 0x55 0x07) ∧
  decodeFrame Config.ex [0x11, 0x99] = .request (.unsupported 0x99) ∧
  decodeFrame Config.exRtu [0x11, 0x03, 0x00, 0x00, 0x00, 0x01, 0x00, 0x00, 0xE2, 0x0B] =
    .request (.read 0x0000 0x0001)

/-- R71 to R78, R86: the decoder gives back every well-formed request from its encoding, with every operand at every value
the encoding admits, in both CRC modes. -/
def Obligations.DecodeOfEncodeIsIdentity : Prop :=
  ∀ (cfg : Config) (i : Instr) (frame : List Byte),
    i.wf cfg = true → encode cfg i = some frame → decodeFrame cfg frame = .request i

/-- R155 to R159: whatever bytes arrive, a request the validator hands on is a well-formed READ, WRITE, IDENTIFY or
UNSUPPORTED, never a command of port D or RST. -/
def Obligations.DecodedRequestsAreWellFormed : Prop :=
  ∀ (cfg : Config) (frame : List Byte) (i : Instr), decodeFrame cfg frame = .request i →
    i.wf cfg = true ∧ (encodeBody cfg i).isSome = true

/-- R84: the reserved request bytes (bytes 6 and 7 of RQ_READ, 5 to 7 of RQ_ID) are ignored, whatever their values. -/
def Obligations.ReservedRequestBytesAreIgnored : Prop :=
  ∀ (cfg : Config) (start qty : U16) (m a o r1 r2 r3 : Byte),
    decodeFrame cfg (frameOut cfg ([cfg.slaveAddr, 0x03] ++ split16 start ++ split16 qty ++ [r1, r2])) =
      .request (.read start qty) ∧
    decodeFrame cfg (frameOut cfg [cfg.slaveAddr, 0x2B, m, a, o, r1, r2, r3]) = .request (.identify m a o)

/-- R75, R78, R159: a WRITE body whose byte count fits decodes to big-endian operands, value `i` being the bytes at `2i`
and `2i+1` of the payload. -/
def Obligations.WriteOperandsAreBigEndian : Prop :=
  ∀ (cfg : Config) (frame data : List Byte) (s1 s0 q1 q0 n : Byte),
    stripCrc cfg frame = some ([cfg.slaveAddr, 0x10, s1, s0, q1, q0, n] ++ data) →
    data.length = n.toNat → n.toNat = 2 * (q1.toNat * 256 + q0.toNat) →
    ∃ (start qty : U16) (values : List U16),
      decodeFrame cfg frame = .request (.write start qty n values) ∧
      start.toNat = s1.toNat * 256 + s0.toNat ∧ qty.toNat = q1.toNat * 256 + q0.toNat ∧
      values.length = qty.toNat ∧
      ∀ (i : Nat) (hi lo : Byte), data[2 * i]? = some hi → data[2 * i + 1]? = some lo →
        ∃ v, values[i]? = some v ∧ v.toNat = hi.toNat * 256 + lo.toNat

/-- R151, R152, R153: a frame is discarded exactly where it fails the CRC stage, its body is shorter than two bytes, or its
first byte is not `SLAVE_ADDR`. -/
def Obligations.DiscardedExactlyWhenUnaddressed : Prop :=
  ∀ (cfg : Config) (frame : List Byte),
    (∃ why, decodeFrame cfg frame = .discard why) ↔
      (stripCrc cfg frame = none ∨
        ∃ body, stripCrc cfg frame = some body ∧ (body.length < 2 ∨ body.head? ≠ some cfg.slaveAddr))

/-! ## The step -/

/-- R9, R180: when the next event is a frame the validator passes on as the request `i`, the step is `exec i` on the state
that has taken the event and entered `Validating`. -/
def Obligations.StepRunsTheDecodedRequest : Prop :=
  ∀ (s : State) (frame : List Byte) (rest : List Event) (i : Instr),
    s.cfg.valid = true → s.pending = .delivered (.frame frame) :: rest → decodeFrame s.cfg frame = .request i →
    step s = exec i { afterTaking s (.delivered (.frame frame)) rest with phase := .validating }

/-- R9, R33, R35: when the next event is a command of port D or RST, the step is `exec` of that command on the state that
has taken the event; with no event pending, the passive block does nothing (the model's choice, log entry 5). -/
def Obligations.StepRunsPortCommands : Prop :=
  ∀ (s : State) (rest : List Event), s.cfg.valid = true →
    (∀ identity typ data, s.pending = .delivered (.appendOrUpdate identity typ data) :: rest →
      step s = exec (.appendOrUpdate identity typ data)
        (afterTaking s (.delivered (.appendOrUpdate identity typ data)) rest)) ∧
    (s.pending = .delivered .clear :: rest → step s = exec .clear (afterTaking s (.delivered .clear) rest)) ∧
    (s.pending = .reset :: rest → step s = exec .reset (afterTaking s .reset rest)) ∧
    (s.pending = [] → step s = .next s)

/-- R154: a discarded frame gets no response and changes no state but the phase, which returns to `Ready`. -/
def Obligations.DiscardChangesNothing : Prop :=
  ∀ (s : State) (frame : List Byte) (rest : List Event) (why : DiscardReason),
    s.cfg.valid = true → s.pending = .delivered (.frame frame) :: rest → decodeFrame s.cfg frame = .discard why →
    step s = .next { afterTaking s (.delivered (.frame frame)) rest with
      phase := .ready, outputs := s.outputs ++ [.nothing] }

/-- R157: a body of 0x03 or 0x2B that is not exactly 8 bytes long answers exception 0x03 and changes nothing else; one of 8
bytes passes the shape check whatever its other bytes, the reserved ones among them. -/
def Obligations.FixedShapeBodiesMustBeEightBytes : Prop :=
  ∀ (s : State) (frame operands : List Byte) (fc : Byte) (rest : List Event),
    s.cfg.valid = true → s.pending = .delivered (.frame frame) :: rest →
    stripCrc s.cfg frame = some (s.cfg.slaveAddr :: fc :: operands) →
    fc = 0x03 ∨ fc = 0x2B →
    (2 + operands.length ≠ 8 →
      step s = .next (answered (afterTaking s (.delivered (.frame frame)) rest) (exceptionFrame s.cfg fc 0x03))) ∧
    (2 + operands.length = 8 → ∃ i, decodeFrame s.cfg frame = .request i ∧
      step s = exec i { afterTaking s (.delivered (.frame frame)) rest with phase := .validating })

/-- R158: a body of 0x10 that is shorter than 7 bytes, whose length is not `7 + byteCount`, or whose `byteCount` is not
`2*qty`, answers exception 0x03 and changes nothing else. -/
def Obligations.WriteBodyLengthsMustAgree : Prop :=
  ∀ (s : State) (frame operands : List Byte) (rest : List Event),
    s.cfg.valid = true → s.pending = .delivered (.frame frame) :: rest →
    stripCrc s.cfg frame = some ([s.cfg.slaveAddr, 0x10] ++ operands) →
    (∀ (s1 s0 q1 q0 n : Byte) (data : List Byte), operands = [s1, s0, q1, q0, n] ++ data →
      data.length ≠ n.toNat ∨ n.toNat ≠ 2 * (q1.toNat * 256 + q0.toNat)) →
    step s = .next (answered (afterTaking s (.delivered (.frame frame)) rest) (exceptionFrame s.cfg 0x10 0x03))

/-- R156, R251: any body of at least two bytes with a matching address and a function byte other than 0x03, 0x10 and 0x2B
answers exception 0x01, whatever its length and its other bytes. -/
def Obligations.UnsupportedFunctionAnswersOne : Prop :=
  ∀ (s : State) (frame operands : List Byte) (fc : Byte) (rest : List Event),
    s.cfg.valid = true → s.pending = .delivered (.frame frame) :: rest →
    stripCrc s.cfg frame = some (s.cfg.slaveAddr :: fc :: operands) →
    fc ≠ 0x03 → fc ≠ 0x10 → fc ≠ 0x2B →
    step s = .next (answered (afterTaking s (.delivered (.frame frame)) rest) (exceptionFrame s.cfg fc 0x01))

/-- R156: UNSUPPORTED completes with exception 0x01 and changes nothing else. -/
def Obligations.UnsupportedCompletes : Prop :=
  ∀ (s : State) (fc : Byte), s.cfg.valid = true → fc ≠ 0x03 → fc ≠ 0x10 → fc ≠ 0x2B →
    exec (.unsupported fc) s = .next (answered s (exceptionFrame s.cfg fc 0x01))

/-! ## The register address space -/

/-- R60: the address map of a well-formed table: register 0 is the count, `1 + k*B` the type of device `k`, `1 + k*B + 1 + j`
its data byte `j`, each byte zero-extended. -/
def Obligations.RegisterMapOfTheTable : Prop :=
  ∀ (cfg : Config) (t : DeviceTable), cfg.valid = true → t.Wf cfg →
    (∃ v, regRead cfg t 0 = .ok v ∧ v.toNat = t.count) ∧
    ∀ k, k < t.count → ∃ sl, slotAt t k = some sl ∧
      (∃ v, regRead cfg t (1 + k * (1 + cfg.dataLen)) = .ok v ∧ v.toNat = sl.typ.toNat) ∧
      ∀ j, j < cfg.dataLen → ∃ b v, sl.data[j]? = some b ∧
        regRead cfg t (1 + k * (1 + cfg.dataLen) + 1 + j) = .ok v ∧ v.toNat = b.toNat

/-- R132: on the allocated addresses `decode` is a bijection onto the type and data fields of the devices below the count,
and `addr` is its inverse. -/
def Obligations.AddressDecodingIsABijection : Prop :=
  ∀ (cfg : Config) (t : DeviceTable),
    (∀ a, 1 ≤ a → a ≤ t.count * (1 + cfg.dataLen) →
      addrOf cfg (decodeAddr cfg a) = a ∧
      ((∃ k, k < t.count ∧ decodeAddr cfg a = .type k) ∨
        ∃ k j, k < t.count ∧ j < cfg.dataLen ∧ decodeAddr cfg a = .data k j)) ∧
    (∀ k, k < t.count →
      addrOf cfg (.type k) = 1 + k * (1 + cfg.dataLen) ∧
      addrOf cfg (.type k) ≤ t.count * (1 + cfg.dataLen) ∧ decodeAddr cfg (addrOf cfg (.type k)) = .type k) ∧
    ∀ k j, k < t.count → j < cfg.dataLen →
      addrOf cfg (.data k j) = 2 + k * (1 + cfg.dataLen) + j ∧
      addrOf cfg (.data k j) ≤ t.count * (1 + cfg.dataLen) ∧ decodeAddr cfg (addrOf cfg (.data k j)) = .data k j

/-! ## READ -/

/-- R182, R183: a READ whose quantity and range are good and whose response fits completes: exactly `qty` registers, register
`i` being `RegRead(start+i)`, in the layout RS_READ; nothing but the phase and the output changes. -/
def Obligations.ReadCompletes : Prop :=
  ∀ (s : State) (start qty : U16), s.cfg.valid = true → s.table.Wf s.cfg →
    1 ≤ qty.toNat → qty.toNat ≤ 0x7B → start.toNat + qty.toNat - 1 ≤ s.table.count * (1 + s.cfg.dataLen) →
    4 + 2 * qty.toNat + crcLength s.cfg ≤ s.cfg.respBufLen →
    ∃ regs : List U16, regs.length = qty.toNat ∧
      (∀ i v, regs[i]? = some v → regRead s.cfg s.table (start.toNat + i) = .ok v) ∧
      exec (.read start qty) s = .next (answered s (frameOut s.cfg
        ([s.cfg.slaveAddr, 0x03, BitVec.ofNat 8 (2 * qty.toNat), 0x00] ++ split16s regs)))

/-- R123, R124: a READ with no register or more than 0x7B answers 0x03, whatever its range; one with a good quantity whose
range does not end at or below `TOP` answers 0x02, computed without wrap-around. -/
def Obligations.ReadRejections : Prop :=
  ∀ (s : State) (start qty : U16), s.cfg.valid = true →
    (qty.toNat = 0 ∨ 0x7B < qty.toNat →
      exec (.read start qty) s = .next (answered s (exceptionFrame s.cfg 0x03 0x03))) ∧
    (1 ≤ qty.toNat → qty.toNat ≤ 0x7B → s.table.count * (1 + s.cfg.dataLen) < start.toNat + qty.toNat - 1 →
      exec (.read start qty) s = .next (answered s (exceptionFrame s.cfg 0x03 0x02)))

/-- R231: a READ whose response would not fit `RESP_BUF_LEN`, counting the CRC, answers 0x04 instead. -/
def Obligations.OversizedReadAnswersOther : Prop :=
  ∀ (s : State) (start qty : U16), s.cfg.valid = true → s.table.Wf s.cfg →
    1 ≤ qty.toNat → qty.toNat ≤ 0x7B → start.toNat + qty.toNat - 1 ≤ s.table.count * (1 + s.cfg.dataLen) →
    s.cfg.respBufLen < 4 + 2 * qty.toNat + crcLength s.cfg →
    exec (.read start qty) s = .next (answered s (exceptionFrame s.cfg 0x03 0x04))

/-- R87: READDEV `k` names the registers `1 + k*(1+DATA_LEN)` to `(k+1)*(1+DATA_LEN)`; where the quantity ceiling and the
response buffer admit them, it completes with device `k`'s type byte and then its data bytes, each zero-extended. -/
def Obligations.ReadDevReturnsTheDevice : Prop :=
  ∀ (s : State) (k : Nat) (sl : Slot), s.cfg.valid = true → s.table.Wf s.cfg → k < s.table.count →
    slotAt s.table k = some sl → 1 + s.cfg.dataLen ≤ 0x7B →
    4 + 2 * (1 + s.cfg.dataLen) + crcLength s.cfg ≤ s.cfg.respBufLen →
    exec (readDev s.cfg k) s = .next (answered s (frameOut s.cfg
      ([s.cfg.slaveAddr, 0x03, BitVec.ofNat 8 (2 * (1 + s.cfg.dataLen)), 0x00] ++
        split16s ((sl.typ :: sl.data).map zext16))))

/-- R55, R183: two READs of the same range with no event between them answer the same response. -/
def Obligations.RepeatedReadsAnswerTheSame : Prop :=
  ∀ (s t : State) (start qty : U16), exec (.read start qty) s = .next t →
    ∃ (u : State) (bytes : List Byte), exec (.read start qty) t = .next u ∧
      t.outputs = s.outputs ++ [.response bytes] ∧ u.outputs = t.outputs ++ [.response bytes] ∧ u.table = s.table

/-- The frame of READ, IDENTIFY and UNSUPPORTED (R55, R200, R156): the configuration, the whole table, and the agents'
events stay as they were; the phase ends `Ready`; exactly one response is handed over. -/
def Obligations.ReadIdentifyUnsupportedFrame : Prop :=
  ∀ (s t : State) (i : Instr),
    ((∃ start qty, i = .read start qty) ∨ (∃ m a o, i = .identify m a o) ∨ ∃ fc, i = .unsupported fc) →
    exec i s = .next t →
    t.cfg = s.cfg ∧ t.table = s.table ∧ t.pending = s.pending ∧ t.taken = s.taken ∧ t.phase = .ready ∧
      ∃ bytes, t.outputs = s.outputs ++ [.response bytes]

/-! ## WRITE -/

/-- R128, R186: a WRITE that passes every check completes with the echo of start and quantity; register `start + i` then
reads value `i`, every other register reads as before, the count is unchanged, and no identity or type byte changes. -/
def Obligations.WriteCompletes : Prop :=
  ∀ (s : State) (start qty : U16) (byteCount : Byte) (values : List U16), s.cfg.valid = true → s.table.Wf s.cfg →
    byteCount.toNat = 2 * qty.toNat → values.length = qty.toNat → 1 ≤ qty.toNat → qty.toNat ≤ 0x7B →
    start.toNat + qty.toNat - 1 ≤ s.table.count * (1 + s.cfg.dataLen) →
    (∀ i, i < qty.toNat → start.toNat + i ≠ 0 ∧ (start.toNat + i - 1) % (1 + s.cfg.dataLen) ≠ 0) →
    (∀ v ∈ values, highByte v = 0) →
    ∃ t : DeviceTable,
      exec (.write start qty byteCount values) s = .next (answered { s with table := t } (frameOut s.cfg
        ([s.cfg.slaveAddr, 0x10] ++ split16 start ++ split16 qty))) ∧
      t.count = s.table.count ∧
      (∀ i v, values[i]? = some v → regRead s.cfg t (start.toNat + i) = .ok v) ∧
      (∀ a, a < start.toNat ∨ start.toNat + qty.toNat ≤ a → regRead s.cfg t a = regRead s.cfg s.table a) ∧
      ∀ k, identAt t k = identAt s.table k ∧ typAt t k = typAt s.table k

/-- R127, R256: the checks of a WRITE in their order, each rejection leaving the table as it was: a bad quantity answers 0x03;
then a range beyond `TOP` answers 0x02; then a read-only register anywhere in the range answers 0x02; then a value whose
high byte is not zero answers 0x04. -/
def Obligations.WriteRejectionsInOrder : Prop :=
  ∀ (s : State) (start qty : U16) (byteCount : Byte) (values : List U16), s.cfg.valid = true →
    byteCount.toNat = 2 * qty.toNat → values.length = qty.toNat →
    (qty.toNat = 0 ∨ 0x7B < qty.toNat →
      exec (.write start qty byteCount values) s = .next (answered s (exceptionFrame s.cfg 0x10 0x03))) ∧
    (1 ≤ qty.toNat → qty.toNat ≤ 0x7B →
      (s.table.count * (1 + s.cfg.dataLen) < start.toNat + qty.toNat - 1 →
        exec (.write start qty byteCount values) s = .next (answered s (exceptionFrame s.cfg 0x10 0x02))) ∧
      (start.toNat + qty.toNat - 1 ≤ s.table.count * (1 + s.cfg.dataLen) →
        ((∃ i, i < qty.toNat ∧ (start.toNat + i = 0 ∨ (start.toNat + i - 1) % (1 + s.cfg.dataLen) = 0)) →
          exec (.write start qty byteCount values) s = .next (answered s (exceptionFrame s.cfg 0x10 0x02))) ∧
        ((∀ i, i < qty.toNat → start.toNat + i ≠ 0 ∧ (start.toNat + i - 1) % (1 + s.cfg.dataLen) ≠ 0) →
          (∃ v ∈ values, highByte v ≠ 0) →
          exec (.write start qty byteCount values) s = .next (answered s (exceptionFrame s.cfg 0x10 0x04)))))

/-- R187: a WRITE that passes the quantity check and touches register 0 or a type register anywhere in its range answers 0x02
and leaves the table unchanged, in range or not. That the quantity check comes first where R187 does not name it is the
model's reading (log entry 10). -/
def Obligations.WriteTouchingReadOnlyAnswersBadAddress : Prop :=
  ∀ (s : State) (start qty : U16) (byteCount : Byte) (values : List U16) (i : Nat), s.cfg.valid = true →
    byteCount.toNat = 2 * qty.toNat → values.length = qty.toNat → qty.toNat ≤ 0x7B → i < qty.toNat →
    (start.toNat + i = 0 ∨ ∃ k, start.toNat + i = 1 + k * (1 + s.cfg.dataLen)) →
    exec (.write start qty byteCount values) s = .next (answered s (exceptionFrame s.cfg 0x10 0x02))

/-- R130: an accepted WRITE, that is one answered by its echo, whether or not it changes a byte (R186), names registers of one
device's data block only, at most `DATA_LEN` of them. -/
def Obligations.AcceptedWritesStayInOneDevice : Prop :=
  ∀ (s t : State) (start qty : U16) (byteCount : Byte) (values : List U16),
    exec (.write start qty byteCount values) s = .next t →
    t.outputs = s.outputs ++ [.response (frameOut s.cfg ([s.cfg.slaveAddr, 0x10] ++ split16 start ++ split16 qty))] →
    qty.toNat ≤ s.cfg.dataLen ∧ ∃ k, k < s.table.count ∧ 2 + k * (1 + s.cfg.dataLen) ≤ start.toNat ∧
      start.toNat + qty.toNat - 1 ≤ (k + 1) * (1 + s.cfg.dataLen)

/-- The frame of WRITE (R186, R25): the configuration and the agents' events stay as they were, the phase ends `Ready`, one
response is handed over; the count and the size of the arena are unchanged, no identity and no type byte changes, and
every register outside `start .. start+qty-1` reads as before. -/
def Obligations.WriteFrame : Prop :=
  ∀ (s t : State) (start qty : U16) (byteCount : Byte) (values : List U16),
    exec (.write start qty byteCount values) s = .next t →
    t.cfg = s.cfg ∧ t.pending = s.pending ∧ t.taken = s.taken ∧ t.phase = .ready ∧
      (∃ bytes, t.outputs = s.outputs ++ [.response bytes]) ∧
      t.table.count = s.table.count ∧ t.table.slots.length = s.table.slots.length ∧
      (∀ k, identAt t.table k = identAt s.table k ∧ typAt t.table k = typAt s.table k) ∧
      ∀ a, a < start.toNat ∨ start.toNat + qty.toNat ≤ a → regRead s.cfg t.table a = regRead s.cfg s.table a

/-- R188, over two steps: with a WRITE frame and then a READ frame of the same range pending, the range lying within one
device's data block and every high byte zero, the WRITE is answered by its echo and the READ by exactly the bytes written.
The quantity ceiling of R124 and a response that fits the buffer (R231) are premises: without them a READ or WRITE answers
an exception (the model's reading of R188, log entry 10). -/
def Obligations.WriteThenReadReturnsTheBytes : Prop :=
  ∀ (s : State) (start qty : U16) (byteCount : Byte) (values : List U16) (k : Nat) (wframe rframe : List Byte)
    (rest : List Event),
    s.cfg.valid = true → s.table.Wf s.cfg → k < s.table.count →
    1 ≤ qty.toNat → qty.toNat ≤ 0x7B → byteCount.toNat = 2 * qty.toNat → values.length = qty.toNat →
    2 + k * (1 + s.cfg.dataLen) ≤ start.toNat → start.toNat + qty.toNat - 1 ≤ (k + 1) * (1 + s.cfg.dataLen) →
    (∀ v ∈ values, highByte v = 0) → 4 + 2 * qty.toNat + crcLength s.cfg ≤ s.cfg.respBufLen →
    encode s.cfg (.write start qty byteCount values) = some wframe →
    encode s.cfg (.read start qty) = some rframe →
    s.pending = .delivered (.frame wframe) :: .delivered (.frame rframe) :: rest →
    ∃ t u : State, step s = .next t ∧ step t = .next u ∧ u.table = t.table ∧ u.outputs = s.outputs ++
      [.response (frameOut s.cfg ([s.cfg.slaveAddr, 0x10] ++ split16 start ++ split16 qty)),
       .response (frameOut s.cfg ([s.cfg.slaveAddr, 0x03, BitVec.ofNat 8 (2 * qty.toNat), 0x00] ++ split16s values))]

/-- R106: `write_data` outside its preconditions writes nothing; within them, on a well-formed table, it writes byte `i` at
`offset + i`, and no other byte, type, identity or slot. -/
def Obligations.WriteDataWritesExactlyItsBytes : Prop :=
  ∀ (cfg : Config) (t : DeviceTable) (k offset : Nat) (bytes : List Byte), t.Wf cfg →
    (t.count ≤ k ∨ cfg.dataLen < offset + bytes.length → writeData cfg t k offset bytes = t) ∧
    (k < t.count → offset + bytes.length ≤ cfg.dataLen → ∃ sl data, slotAt t k = some sl ∧
      slotAt (writeData cfg t k offset bytes) k = some { sl with data := data } ∧
      (∀ i, i < bytes.length → data[offset + i]? = bytes[i]?) ∧
      (∀ j, j < offset ∨ offset + bytes.length ≤ j → data[j]? = sl.data[j]?) ∧
      (∀ m, m ≠ k → slotAt (writeData cfg t k offset bytes) m = slotAt t m) ∧
      (writeData cfg t k offset bytes).count = t.count)

/-! ## IDENTIFY -/

/-- R200, R231: IDENTIFY completes in every state with the three objects in the layout RS_ID, `meiType` and `accessType`
echoed and `objectId` without effect; where that response does not fit `RESP_BUF_LEN` it answers 0x04. -/
def Obligations.IdentifyCompletes : Prop :=
  ∀ (s : State) (m a o : Byte), s.cfg.valid = true →
    exec (.identify m a o) s = .next (answered s (
      if 14 + s.cfg.vendorName.length + s.cfg.productCode.length + s.cfg.revision.length + crcLength s.cfg ≤
          s.cfg.respBufLen then
        frameOut s.cfg ([s.cfg.slaveAddr, 0x2B, m, a, s.cfg.conformityLevel, 0x00, 0x00, 0x03] ++
          ([0x00, BitVec.ofNat 8 s.cfg.vendorName.length] ++ s.cfg.vendorName) ++
          ([0x01, BitVec.ofNat 8 s.cfg.productCode.length] ++ s.cfg.productCode) ++
          ([0x02, BitVec.ofNat 8 s.cfg.revision.length] ++ s.cfg.revision))
      else exceptionFrame s.cfg 0x2B 0x04))

/-! ## Port D and reset -/

/-- R101: an AppendOrUpdate of an identity that slot `k` holds, the table full or not, overwrites that slot's type and data in
place and returns `Updated`. -/
def Obligations.UpdateOverwritesInPlace : Prop :=
  ∀ (s : State) (identity : Ident) (typ : Byte) (data : List Byte) (k : Nat), s.cfg.valid = true → s.table.Wf s.cfg →
    data.length = s.cfg.dataLen → k < s.table.count → identAt s.table k = some identity →
    exec (.appendOrUpdate identity typ data) s = .next { s with
      table := { s.table with slots := s.table.slots.set k (some ⟨identity, typ, data⟩) },
      outputs := s.outputs ++ [.appendResult .updated] }

/-- R101: an AppendOrUpdate of an identity no populated slot holds, with room in the table, fills the slot at the count,
raises the count by one and returns `Appended`. -/
def Obligations.AppendFillsTheNextSlot : Prop :=
  ∀ (s : State) (identity : Ident) (typ : Byte) (data : List Byte), s.cfg.valid = true → s.table.Wf s.cfg →
    data.length = s.cfg.dataLen → (∀ k, k < s.table.count → identAt s.table k ≠ some identity) →
    s.table.count < s.cfg.maxDevices →
    exec (.appendOrUpdate identity typ data) s = .next { s with
      table := ⟨s.table.count + 1, s.table.slots.set s.table.count (some ⟨identity, typ, data⟩)⟩,
      outputs := s.outputs ++ [.appendResult .appended] }

/-- R101: an AppendOrUpdate of a new identity on a full table changes nothing and returns `Ignored`. -/
def Obligations.FullTableIgnoresNewIdentities : Prop :=
  ∀ (s : State) (identity : Ident) (typ : Byte) (data : List Byte), s.cfg.valid = true → s.table.Wf s.cfg →
    data.length = s.cfg.dataLen → (∀ k, k < s.table.count → identAt s.table k ≠ some identity) →
    s.table.count = s.cfg.maxDevices →
    exec (.appendOrUpdate identity typ data) s = .next { s with outputs := s.outputs ++ [.appendResult .ignored] }

/-- The frame of APPEND_OR_UPDATE (R101), in every state: the configuration, the phase and the agents' events stay as they
were, one result is handed over; a slot that changes holds the record given, and it held that identity before or is the
slot at the count; every register of every other device reads as before. -/
def Obligations.AppendOrUpdateFrame : Prop :=
  ∀ (s t : State) (identity : Ident) (typ : Byte) (data : List Byte),
    exec (.appendOrUpdate identity typ data) s = .next t →
    t.cfg = s.cfg ∧ t.phase = s.phase ∧ t.pending = s.pending ∧ t.taken = s.taken ∧
      (∃ r, t.outputs = s.outputs ++ [.appendResult r] ∧
        t.table.count = if r = .appended then s.table.count + 1 else s.table.count) ∧
      t.table.slots.length = s.table.slots.length ∧
      (∀ k, slotAt t.table k ≠ slotAt s.table k → slotAt t.table k = some ⟨identity, typ, data⟩ ∧
        (identAt s.table k = some identity ∨ k = s.table.count)) ∧
      ∀ a, 1 ≤ a → a ≤ s.table.count * (1 + s.cfg.dataLen) →
        identAt s.table ((a - 1) / (1 + s.cfg.dataLen)) ≠ some identity →
        regRead s.cfg t.table a = regRead s.cfg s.table a

/-- R103, over `MAX_DEVICES + 1` steps: from an empty table, with that many AppendOrUpdate commands of pairwise distinct
identities pending, the first `MAX_DEVICES` return `Appended`, the last returns `Ignored` and leaves the table as the
first ones filled it, in their order. -/
def Obligations.CapacityLaw : Prop :=
  ∀ (s : State) (records : List Slot) (rest : List Event),
    s.cfg.valid = true → s.table.Wf s.cfg → s.table.count = 0 →
    records.length = s.cfg.maxDevices + 1 → (records.map Slot.ident).Nodup →
    (∀ sl ∈ records, sl.data.length = s.cfg.dataLen) →
    s.pending = records.map (fun sl => .delivered (.appendOrUpdate sl.ident sl.typ sl.data)) ++ rest →
    ∃ t : State, Host.Core.run Sys2Proof.core (s.cfg.maxDevices + 1) s = .next t ∧
      t.outputs = s.outputs ++ List.replicate s.cfg.maxDevices (.appendResult .appended) ++ [.appendResult .ignored] ∧
      t.table = ⟨s.cfg.maxDevices, (records.take s.cfg.maxDevices).map some⟩ ∧ t.pending = rest

/-- R189: after an AppendOrUpdate with the identity of device `k`, every register of the device reads the advertised type and
data, whatever a master wrote there before. -/
def Obligations.UpdateOverwritesMasterWrites : Prop :=
  ∀ (s t : State) (identity : Ident) (typ : Byte) (data : List Byte) (k : Nat), s.table.Wf s.cfg →
    k < s.table.count → identAt s.table k = some identity → exec (.appendOrUpdate identity typ data) s = .next t →
    regRead t.cfg t.table (1 + k * (1 + s.cfg.dataLen)) = .ok (zext16 typ) ∧
    ∀ j b, data[j]? = some b → regRead t.cfg t.table (2 + k * (1 + s.cfg.dataLen) + j) = .ok (zext16 b)

/-- R104, R61: CLEAR completes in every state: the count is 0 and no slot holds a value (that the slots are erased is the
model's choice, log entry 6); nothing else changes. After it register 0 reads 0 and every READ of good quantity but that of
register 0 alone answers 0x02. -/
def Obligations.ClearEmptiesTheTable : Prop :=
  ∀ s : State, s.cfg.valid = true → ∃ t : State, exec .clear s = .next t ∧
    t = { s with table := t.table, outputs := s.outputs ++ [.nothing] } ∧
    t.table.count = 0 ∧ t.table.slots.length = s.table.slots.length ∧ (∀ k, slotAt t.table k = none) ∧
    regRead t.cfg t.table 0 = .ok 0 ∧
    ∀ start qty : U16, 1 ≤ qty.toNat → qty.toNat ≤ 0x7B → 1 ≤ start.toNat ∨ 2 ≤ qty.toNat →
      exec (.read start qty) t = .next (answered t (exceptionFrame t.cfg 0x03 0x02))

/-- R38, R280: RESET completes in every state: the count is 0, every slot of the arena holds no value, the phase is `Ready`,
the configuration is unchanged, and nothing is emitted. R38 leaves the contents of the slots unspecified: that RESET erases
them is the model's choice (log entry 6). -/
def Obligations.ResetPutsEveryPieceOfState : Prop :=
  ∀ s : State, s.cfg.valid = true →
    exec .reset s = .next { s with
      table := ⟨0, List.replicate s.cfg.maxDevices none⟩, phase := .ready, outputs := s.outputs ++ [.nothing] }

/-- R280: a reset that arrives while a delivery's transaction is in flight admits both outcomes, the delivery's output handed
over or none, and the state of the block after it is the reset state either way. That a port D command in flight behaves
as a frame does is the model's reading (log entry 4), and that the slots are erased is its choice (log entry 6). -/
def Obligations.ResetInFlightAdmitsBothOutcomes : Prop :=
  ∀ (s : State) (d : Delivery) (rest : List Event) (answeredFirst : Bool), s.Inv → d.wf s.cfg = true →
    s.pending = .cutByReset d answeredFirst :: rest →
    ∃ t u : State, step s = .next t ∧
      step { s with pending := .delivered d :: rest } = .next u ∧
      t.cfg = s.cfg ∧ t.table = DeviceTable.empty s.cfg ∧ t.phase = .ready ∧ t.pending = rest ∧
      t.outputs = if answeredFirst then u.outputs else s.outputs ++ [.nothing]

/-- R281, R182: the first frame after reset sees an empty table: READCOUNT returns the count 0, and every other READ of good
quantity (at an address above 0, or of more than register 0) and every WRITE of good quantity answers 0x02. The quantity
premise is R124's, whose check comes first (the model's reading of R281, log entry 10). -/
def Obligations.FirstFrameAfterResetSeesAnEmptyTable : Prop :=
  ∀ cfg : Config, cfg.valid = true →
    exec readCount (State.resetWith cfg) = .next (answered (State.resetWith cfg)
      (frameOut cfg [cfg.slaveAddr, 0x03, 0x02, 0x00, 0x00, 0x00])) ∧
    ∀ start qty : U16, 1 ≤ qty.toNat → qty.toNat ≤ 0x7B →
      (1 ≤ start.toNat ∨ 2 ≤ qty.toNat → exec (.read start qty) (State.resetWith cfg) =
        .next (answered (State.resetWith cfg) (exceptionFrame cfg 0x03 0x02))) ∧
      ∀ (byteCount : Byte) (values : List U16), byteCount.toNat = 2 * qty.toNat → values.length = qty.toNat →
        exec (.write start qty byteCount values) (State.resetWith cfg) =
          .next (answered (State.resetWith cfg) (exceptionFrame cfg 0x10 0x02))

/-! ## What is refused -/

/-- R6: a configuration that breaks a constraint has no meaning: no instruction and no step runs under it. -/
def Obligations.InvalidConfigurationIsRefused : Prop :=
  ∀ s : State, (0xFFFF < s.cfg.maxDevices * (1 + s.cfg.dataLen) ∨ 0xFFFF < s.cfg.maxDevices ∨ s.cfg.dataLen < 1 ∨
      s.cfg.respBufLen < 8) →
    step s = .refused .invalidConfiguration ∧ ∀ i : Instr, exec i s = .refused .invalidConfiguration

/-- R107: an AppendOrUpdate whose data block is not exactly `DATA_LEN` bytes is refused. -/
def Obligations.MisshapenCommandIsRefused : Prop :=
  ∀ (s : State) (identity : Ident) (typ : Byte) (data : List Byte), s.cfg.valid = true →
    data.length ≠ s.cfg.dataLen →
    exec (.appendOrUpdate identity typ data) s = .refused .illFormedInstruction

/-! ## The whole machine -/

/-- R21 to R23, R26, R37: the invariant of the block (table well formed, phase `Ready`, one output per event, every response
within the buffer) holds after every step from every state in which it holds. The logs of events and outputs, the reset in
flight as one event, and the step with no event are the model's (log entries 3, 4 and 5). -/
def Obligations.StepKeepsTheInvariant : Prop :=
  ∀ s t : State, s.Inv → step s = .next t → t.Inv

/-- R38: the invariant holds at reset, under every valid configuration, and so in `State.reset`, whose configuration is the
model's choice (log entry 1). -/
def Obligations.ResetMeetsTheInvariant : Prop :=
  (∀ cfg : Config, cfg.valid = true → (State.resetWith cfg).Inv) ∧ State.reset.Inv

/-- R291, R9, R24: from a state that meets the invariant, with well-formed events pending, the block runs for ever: no run of
any length faults or is refused, and the invariant holds at its end. Steps with no event pending count, by the model's
choice (log entry 5). -/
def Obligations.BlockRunsForEver : Prop :=
  ∀ (s : State) (k : Nat), s.Inv → s.PendingWf → SafeRun k s

/-- R24, R107: from a state that meets the invariant no step faults, and the only refusal is a port D command whose data block
has the wrong length, whether it runs or a reset cuts it (log entries 4 and 5). -/
def Obligations.StepStopsOnlyOnMisshapenCommands : Prop :=
  ∀ s : State, s.Inv →
    (∃ t, step s = .next t) ∨
    (step s = .refused .illFormedInstruction ∧
      ∃ (d : Delivery) (rest : List Event), d.wf s.cfg = false ∧
        (s.pending = .delivered d :: rest ∨ ∃ b, s.pending = .cutByReset d b :: rest))

/-- R5, R30: no step changes the configuration, which the model carries in the state (log entry 1). -/
def Obligations.ConfigurationNeverChanges : Prop :=
  ∀ s t : State, step s = .next t → t.cfg = s.cfg

/-- R9, R56: a step that takes an event takes exactly that one, in the order pending, and hands over exactly one output (none
is recorded as `nothing`: the model's log, entry 3). -/
def Obligations.OneEventOneOutput : Prop :=
  ∀ (s t : State) (e : Event) (rest : List Event), s.pending = e :: rest → step s = .next t →
    t.pending = rest ∧ t.taken = s.taken ++ [e] ∧ ∃ o, t.outputs = s.outputs ++ [o]

/-- R161: the block answers every frame that passes the CRC stage, has at least two bytes and a matching address, by exactly
one response; any other frame gets none. -/
def Obligations.AnsweredExactlyWhenAddressed : Prop :=
  ∀ (s : State) (frame : List Byte) (rest : List Event), s.cfg.valid = true → s.table.Wf s.cfg →
    s.pending = .delivered (.frame frame) :: rest → ∃ t : State, step s = .next t ∧
    ((∃ fc operands, stripCrc s.cfg frame = some (s.cfg.slaveAddr :: fc :: operands)) →
      ∃ bytes, t.outputs = s.outputs ++ [.response bytes]) ∧
    ((¬∃ fc operands, stripCrc s.cfg frame = some (s.cfg.slaveAddr :: fc :: operands)) →
      t.outputs = s.outputs ++ [.nothing])

/-- R26: a frame's transaction ends in `Ready` from any phase, whether it ends in a response, an exception or a discard. -/
def Obligations.FramesReturnToReady : Prop :=
  ∀ (s t : State) (frame : List Byte) (rest : List Event),
    s.pending = .delivered (.frame frame) :: rest → step s = .next t → t.phase = .ready

/-- R231: every response, of whatever outcome, fits the response buffer, counting its CRC. -/
def Obligations.ResponsesFitTheBuffer : Prop :=
  ∀ (s t : State) (frame bytes : List Byte) (rest : List Event),
    s.pending = .delivered (.frame frame) :: rest → step s = .next t →
    t.outputs = s.outputs ++ [.response bytes] → bytes.length ≤ s.cfg.respBufLen

/-- R79, R232: every response is a body in the framing of `CRC_MODE` (so its CRC checks), its byte 0 is `SLAVE_ADDR`, and its
byte 1 is the request's function code or that code with bit 7 set. -/
def Obligations.ResponsesCarryAddressAndFunction : Prop :=
  ∀ (s t : State) (frame bytes operands : List Byte) (fc : Byte) (rest : List Event),
    s.pending = .delivered (.frame frame) :: rest → step s = .next t →
    stripCrc s.cfg frame = some (s.cfg.slaveAddr :: fc :: operands) → t.outputs = s.outputs ++ [.response bytes] →
    ∃ body, stripCrc s.cfg bytes = some body ∧ body[0]? = some s.cfg.slaveAddr ∧
      (body[1]? = some fc ∨ body[1]? = some (fc ||| 0x80))

/-- R190, R255: a frame answered by an exception, that is by a response whose function byte has bit 7 set, leaves the table as
it was. -/
def Obligations.ExceptionsLeaveTheTableAlone : Prop :=
  ∀ (s t : State) (frame bytes body : List Byte) (f : Byte) (rest : List Event),
    s.pending = .delivered (.frame frame) :: rest → step s = .next t →
    t.outputs = s.outputs ++ [.response bytes] → stripCrc s.cfg bytes = some body →
    body[1]? = some f → f.getLsbD 7 = true → t.table = s.table

/-- R21, R25, R259: no frame changes the count, the size of the arena, an identity or a type byte. -/
def Obligations.FramesNeverChangeCountTypeOrIdentity : Prop :=
  ∀ (s t : State) (frame : List Byte) (rest : List Event),
    s.pending = .delivered (.frame frame) :: rest → step s = .next t →
    t.table.count = s.table.count ∧ t.table.slots.length = s.table.slots.length ∧
      ∀ k, identAt t.table k = identAt s.table k ∧ typAt t.table k = typAt s.table k

/-- R25 (`ident` is not visible to the master): two states that differ only in the identities of their records answer every
frame alike, and still differ only in identities afterwards. -/
def Obligations.IdentitiesAreInvisibleToFrames : Prop :=
  ∀ (s t : State) (table : DeviceTable) (frame : List Byte) (rest : List Event),
    s.pending = .delivered (.frame frame) :: rest → blankIdents table = blankIdents s.table → step s = .next t →
    ∃ u : State, step { s with table := table } = .next u ∧ u.outputs = t.outputs ∧
      blankIdents u.table = blankIdents t.table

/-- R24, U2: what slots at or above the count hold is never observed: two states that agree on the slots below the count give
every delivery the same output, and still agree below the count afterwards. -/
def Obligations.SlotsAboveTheCountAreInvisible : Prop :=
  ∀ (s t : State) (table : DeviceTable) (d : Delivery) (rest : List Event),
    s.pending = .delivered d :: rest → AgreeBelowCount s.table table → step s = .next t →
    ∃ u : State, step { s with table := table } = .next u ∧ u.outputs = t.outputs ∧ AgreeBelowCount t.table u.table

/-- R34: the collaborator's translation gives commands port D admits: the indicator's data block is the state byte followed
by zeros, exactly `DATA_LEN` bytes, under the type byte `INDICATOR_TYPE_BYTE`; the list reset is `Clear`. -/
def Obligations.AdvertisementsBecomeWellFormedCommands : Prop :=
  ∀ (cfg : Config) (identity : Ident) (state typ : Byte) (data : List Byte), cfg.valid = true →
    (indicatorAdvertisement cfg identity state).wf cfg = true ∧
    (∃ block, indicatorAdvertisement cfg identity state = .appendOrUpdate identity cfg.indicatorTypeByte block ∧
      block[0]? = some state ∧ ∀ j, 1 ≤ j → j < cfg.dataLen → block[j]? = some 0x00) ∧
    sensorAdvertisement identity typ data = .appendOrUpdate identity typ data ∧ resetDiscoveredList = .clear
end

