-- ==== Sys2Proof/Laws/Operands.lean ====
section
/-! SUPPORT. Laws of the byte-order operations: big-endian assembly and splitting undo each other (00_scope.md R11). -/

namespace Sys2Proof.Machine

/-- `be16(hi, lo) = hi*256 + lo` (R11). -/
theorem be16_toNat (hi lo : Byte) : (be16 hi lo).toNat = hi.toNat * 256 + lo.toNat := by
  have h : lo.toNat < 2 ^ 8 := lo.isLt
  simp only [be16, BitVec.toNat_append]
  rw [← Nat.shiftLeft_add_eq_or_of_lt h, Nat.shiftLeft_eq]

/-- `v[15:8]` is `v div 256`. -/
theorem highByte_toNat (v : U16) : (highByte v).toNat = v.toNat / 256 := by
  have h : v.toNat < 2 ^ 16 := v.isLt
  simp only [highByte, BitVec.extractLsb'_toNat, Nat.shiftRight_eq_div_pow]
  omega

/-- `v[7:0]` is `v mod 256`. -/
theorem lowByte_toNat (v : U16) : (lowByte v).toNat = v.toNat % 256 := by
  simp [lowByte, BitVec.extractLsb'_toNat]

/-- `zext_16` keeps the value (R10). -/
theorem zext16_toNat (b : Byte) : (zext16 b).toNat = b.toNat := by
  have h : b.toNat < 2 ^ 8 := b.isLt
  simp only [zext16, BitVec.toNat_setWidth]
  omega

@[simp] theorem be16_high_low (v : U16) : be16 (highByte v) (lowByte v) = v := by
  apply BitVec.eq_of_toNat_eq
  rw [be16_toNat, highByte_toNat, lowByte_toNat]
  omega

@[simp] theorem highByte_be16 (hi lo : Byte) : highByte (be16 hi lo) = hi := by
  have h : lo.toNat < 2 ^ 8 := lo.isLt
  apply BitVec.eq_of_toNat_eq
  rw [highByte_toNat, be16_toNat]
  omega

@[simp] theorem lowByte_be16 (hi lo : Byte) : lowByte (be16 hi lo) = lo := by
  have h : lo.toNat < 2 ^ 8 := lo.isLt
  apply BitVec.eq_of_toNat_eq
  rw [lowByte_toNat, be16_toNat]
  omega

@[simp] theorem lowByte_zext16 (b : Byte) : lowByte (zext16 b) = b := by
  have h : b.toNat < 2 ^ 8 := b.isLt
  apply BitVec.eq_of_toNat_eq
  rw [lowByte_toNat, zext16_toNat]
  omega

@[simp] theorem highByte_zext16 (b : Byte) : highByte (zext16 b) = 0 := by
  have h : b.toNat < 2 ^ 8 := b.isLt
  apply BitVec.eq_of_toNat_eq
  rw [highByte_toNat, zext16_toNat]
  simp
  omega

/-- A value whose high byte is zero is its low byte, zero-extended (R51, R129). -/
theorem zext16_lowByte {v : U16} (h : highByte v = 0) : zext16 (lowByte v) = v := by
  rw [← be16_high_low (zext16 (lowByte v)), highByte_zext16, lowByte_zext16, ← h, be16_high_low]

@[simp] theorem split16_length (v : U16) : (split16 v).length = 2 := rfl

@[simp] theorem split16s_length (vs : List U16) : (split16s vs).length = 2 * vs.length := by
  induction vs with
  | nil => rfl
  | cons v vs ih => simp [split16s, ih]; omega

@[simp] theorem be16s_split16s (vs : List U16) : be16s (split16s vs) = vs := by
  induction vs with
  | nil => rfl
  | cons v vs ih => simp [split16s, split16, be16s, ih]

/-- `n` pairs of bytes are `n` values (R78). -/
theorem be16s_length (n : Nat) : ∀ bytes : List Byte, bytes.length = 2 * n → (be16s bytes).length = n := by
  induction n with
  | zero => intro bytes h; cases bytes with | nil => rfl | cons => simp at h
  | succ n ih =>
    intro bytes h
    match bytes, h with
    | hi :: lo :: rest, h => simp [be16s, ih rest (by simp at h; omega)]
    | [_], h => simp at h; omega
    | [], h => simp at h

/-- Splitting the assembled values gives the bytes back, for a whole number of pairs (R78, R233). -/
theorem split16s_be16s (n : Nat) : ∀ bytes : List Byte, bytes.length = 2 * n → split16s (be16s bytes) = bytes := by
  induction n with
  | zero => intro bytes h; cases bytes with | nil => rfl | cons => simp at h
  | succ n ih =>
    intro bytes h
    match bytes, h with
    | hi :: lo :: rest, h => simp [be16s, split16s, split16, ih rest (by simp at h; omega)]
    | [_], h => simp at h; omega
    | [], h => simp at h

/-- Value `i` is the pair of bytes at `2i` and `2i+1` (R78). -/
theorem be16s_getElem? : ∀ (i : Nat) (bytes : List Byte) (hi lo : Byte), bytes[2 * i]? = some hi →
    bytes[2 * i + 1]? = some lo → (be16s bytes)[i]? = some (be16 hi lo)
  | 0, hi' :: lo' :: rest, hi, lo, h1, h2 => by
    simp only [Nat.mul_zero, List.getElem?_cons_zero, Option.some.injEq, Nat.zero_add, List.getElem?_cons_succ] at h1 h2
    simp [be16s, h1, h2]
  | i + 1, hi' :: lo' :: rest, hi, lo, h1, h2 => by
    have e1 : 2 * (i + 1) = 2 * i + 1 + 1 := by omega
    rw [e1] at h1
    rw [e1, List.getElem?_cons_succ, List.getElem?_cons_succ] at h2
    simp only [List.getElem?_cons_succ] at h1
    simpa [be16s] using be16s_getElem? i rest hi lo h1 h2
  | i, [_], hi, lo, h1, h2 => by simp at h2
  | i, [], hi, lo, h1, h2 => by simp at h1

end Sys2Proof.Machine
end

