-- ==== Sys2Proof/Laws/Crc.lean ====
section
/-! SUPPORT. Laws of the CRC framing (30_encoding.md R71; 42_frame_validator.md R151; 44_response_builder.md R231, R232). -/

namespace Sys2Proof.Machine

@[simp] theorem crcBytes_length (bytes : List Byte) : (crcBytes bytes).length = 2 := rfl

/-- The length of a frame (R72). -/
@[simp] theorem frameOut_length (cfg : Config) (body : List Byte) :
    (frameOut cfg body).length = body.length + crcLength cfg := by
  unfold frameOut crcLength
  cases cfg.crcMode <;> simp

theorem stripCrc_none {cfg : Config} (h : cfg.crcMode = .none) (frame : List Byte) : stripCrc cfg frame = some frame := by
  simp [stripCrc, h]

/-- What the CRC stage lets pass: exactly the frames that are a body in its framing (R71, R151). -/
theorem stripCrc_eq_some_iff (cfg : Config) (frame body : List Byte) :
    stripCrc cfg frame = some body ↔ frame = frameOut cfg body := by
  unfold stripCrc frameOut
  cases cfg.crcMode with
  | none => simp
  | modbusRtu =>
    simp only
    constructor
    · intro h
      split at h
      · cases h
      · rename_i hlen
        split at h
        · rename_i lo hi htail
          split at h
          · rename_i hcrc
            cases h
            conv_lhs => rw [← List.take_append_drop (frame.length - 2) frame, htail]
            rw [crcBytes, ← hcrc]
            simp
          · cases h
        · cases h
    · rintro rfl
      have hlen : (body ++ crcBytes body).length - 2 = body.length := by simp
      rw [if_neg (by simp), hlen, List.drop_left, List.take_left]
      simp [crcBytes]

/-- A body in its framing passes the CRC stage. -/
@[simp] theorem stripCrc_frameOut (cfg : Config) (body : List Byte) : stripCrc cfg (frameOut cfg body) = some body :=
  (stripCrc_eq_some_iff cfg _ _).mpr rfl

end Sys2Proof.Machine
end

