-- ==== Sys2Proof/Laws/State.lean ====
section
/-! SUPPORT. One lemma per field per update of State, each true by unfolding the update once. -/

namespace Sys2Proof.Machine

variable (s : State)

@[simp] theorem setPhase_cfg (p : Phase) : (setPhase p s).cfg = s.cfg := rfl
@[simp] theorem setPhase_table (p : Phase) : (setPhase p s).table = s.table := rfl
@[simp] theorem setPhase_phase (p : Phase) : (setPhase p s).phase = p := rfl
@[simp] theorem setPhase_pending (p : Phase) : (setPhase p s).pending = s.pending := rfl
@[simp] theorem setPhase_taken (p : Phase) : (setPhase p s).taken = s.taken := rfl
@[simp] theorem setPhase_outputs (p : Phase) : (setPhase p s).outputs = s.outputs := rfl

@[simp] theorem setTable_cfg (t : DeviceTable) : (setTable t s).cfg = s.cfg := rfl
@[simp] theorem setTable_table (t : DeviceTable) : (setTable t s).table = t := rfl
@[simp] theorem setTable_phase (t : DeviceTable) : (setTable t s).phase = s.phase := rfl
@[simp] theorem setTable_pending (t : DeviceTable) : (setTable t s).pending = s.pending := rfl
@[simp] theorem setTable_taken (t : DeviceTable) : (setTable t s).taken = s.taken := rfl
@[simp] theorem setTable_outputs (t : DeviceTable) : (setTable t s).outputs = s.outputs := rfl

@[simp] theorem pushOutput_cfg (o : Output) : (pushOutput o s).cfg = s.cfg := rfl
@[simp] theorem pushOutput_table (o : Output) : (pushOutput o s).table = s.table := rfl
@[simp] theorem pushOutput_phase (o : Output) : (pushOutput o s).phase = s.phase := rfl
@[simp] theorem pushOutput_pending (o : Output) : (pushOutput o s).pending = s.pending := rfl
@[simp] theorem pushOutput_taken (o : Output) : (pushOutput o s).taken = s.taken := rfl
@[simp] theorem pushOutput_outputs (o : Output) : (pushOutput o s).outputs = s.outputs ++ [o] := rfl

@[simp] theorem endTransaction_cfg : (endTransaction s).cfg = s.cfg := rfl
@[simp] theorem endTransaction_table : (endTransaction s).table = s.table := rfl
@[simp] theorem endTransaction_phase : (endTransaction s).phase = .ready := rfl
@[simp] theorem endTransaction_pending : (endTransaction s).pending = s.pending := rfl
@[simp] theorem endTransaction_taken : (endTransaction s).taken = s.taken := rfl
@[simp] theorem endTransaction_outputs : (endTransaction s).outputs = s.outputs := rfl

@[simp] theorem discardFrame_cfg : (discardFrame s).cfg = s.cfg := rfl
@[simp] theorem discardFrame_table : (discardFrame s).table = s.table := rfl
@[simp] theorem discardFrame_phase : (discardFrame s).phase = .ready := rfl
@[simp] theorem discardFrame_pending : (discardFrame s).pending = s.pending := rfl
@[simp] theorem discardFrame_taken : (discardFrame s).taken = s.taken := rfl
@[simp] theorem discardFrame_outputs : (discardFrame s).outputs = s.outputs ++ [.nothing] := rfl

@[simp] theorem resetState_cfg : (resetState s).cfg = s.cfg := rfl
@[simp] theorem resetState_table : (resetState s).table = DeviceTable.empty s.cfg := rfl
@[simp] theorem resetState_phase : (resetState s).phase = .ready := rfl
@[simp] theorem resetState_pending : (resetState s).pending = s.pending := rfl
@[simp] theorem resetState_taken : (resetState s).taken = s.taken := rfl
@[simp] theorem resetState_outputs : (resetState s).outputs = s.outputs := rfl

@[simp] theorem respond_cfg (fc : Byte) (r : Reply) : (respond fc r s).cfg = s.cfg := rfl
@[simp] theorem respond_table (fc : Byte) (r : Reply) : (respond fc r s).table = s.table := rfl
@[simp] theorem respond_phase (fc : Byte) (r : Reply) : (respond fc r s).phase = .ready := rfl
@[simp] theorem respond_pending (fc : Byte) (r : Reply) : (respond fc r s).pending = s.pending := rfl
@[simp] theorem respond_taken (fc : Byte) (r : Reply) : (respond fc r s).taken = s.taken := rfl
@[simp] theorem respond_outputs (fc : Byte) (r : Reply) : (respond fc r s).outputs = s.outputs ++ [.response (build s.cfg fc r)] := rfl

@[simp] theorem raiseException_cfg (fc : Byte) (c : ExceptionCode) : (raiseException fc c s).cfg = s.cfg := rfl
@[simp] theorem raiseException_table (fc : Byte) (c : ExceptionCode) : (raiseException fc c s).table = s.table := rfl
@[simp] theorem raiseException_phase (fc : Byte) (c : ExceptionCode) : (raiseException fc c s).phase = .ready := rfl
@[simp] theorem raiseException_pending (fc : Byte) (c : ExceptionCode) : (raiseException fc c s).pending = s.pending := rfl
@[simp] theorem raiseException_taken (fc : Byte) (c : ExceptionCode) : (raiseException fc c s).taken = s.taken := rfl
@[simp] theorem raiseException_outputs (fc : Byte) (c : ExceptionCode) : (raiseException fc c s).outputs = s.outputs ++ [.response (build s.cfg fc (.exception c))] := rfl

@[simp] theorem takeEvent_cfg (e : Event) (rest : List Event) : (takeEvent e rest s).cfg = s.cfg := rfl
@[simp] theorem takeEvent_table (e : Event) (rest : List Event) : (takeEvent e rest s).table = s.table := rfl
@[simp] theorem takeEvent_phase (e : Event) (rest : List Event) : (takeEvent e rest s).phase = s.phase := rfl
@[simp] theorem takeEvent_pending (e : Event) (rest : List Event) : (takeEvent e rest s).pending = rest := rfl
@[simp] theorem takeEvent_taken (e : Event) (rest : List Event) : (takeEvent e rest s).taken = s.taken ++ [e] := rfl
@[simp] theorem takeEvent_outputs (e : Event) (rest : List Event) : (takeEvent e rest s).outputs = s.outputs := rfl

@[simp] theorem afterTaking_cfg (e : Event) (rest : List Event) : (afterTaking s e rest).cfg = s.cfg := rfl
@[simp] theorem afterTaking_table (e : Event) (rest : List Event) : (afterTaking s e rest).table = s.table := rfl
@[simp] theorem afterTaking_phase (e : Event) (rest : List Event) : (afterTaking s e rest).phase = s.phase := rfl
@[simp] theorem afterTaking_pending (e : Event) (rest : List Event) : (afterTaking s e rest).pending = rest := rfl
@[simp] theorem afterTaking_taken (e : Event) (rest : List Event) : (afterTaking s e rest).taken = s.taken ++ [e] := rfl
@[simp] theorem afterTaking_outputs (e : Event) (rest : List Event) : (afterTaking s e rest).outputs = s.outputs := rfl

@[simp] theorem answered_cfg (bytes : List Byte) : (answered s bytes).cfg = s.cfg := rfl
@[simp] theorem answered_table (bytes : List Byte) : (answered s bytes).table = s.table := rfl
@[simp] theorem answered_phase (bytes : List Byte) : (answered s bytes).phase = .ready := rfl
@[simp] theorem answered_pending (bytes : List Byte) : (answered s bytes).pending = s.pending := rfl
@[simp] theorem answered_taken (bytes : List Byte) : (answered s bytes).taken = s.taken := rfl
@[simp] theorem answered_outputs (bytes : List Byte) : (answered s bytes).outputs = s.outputs ++ [.response bytes] := rfl

@[simp] theorem deliverFrame_cfg (bytes : List Byte) : (deliverFrame bytes s).cfg = s.cfg := rfl
@[simp] theorem deliverFrame_table (bytes : List Byte) : (deliverFrame bytes s).table = s.table := rfl
@[simp] theorem deliverFrame_phase (bytes : List Byte) : (deliverFrame bytes s).phase = s.phase := rfl
@[simp] theorem deliverFrame_pending (bytes : List Byte) : (deliverFrame bytes s).pending = .delivered (.frame bytes) :: s.pending := rfl
@[simp] theorem deliverFrame_taken (bytes : List Byte) : (deliverFrame bytes s).taken = s.taken := rfl
@[simp] theorem deliverFrame_outputs (bytes : List Byte) : (deliverFrame bytes s).outputs = s.outputs := rfl

/-- Taking an event is what the statements call `afterTaking`. -/
theorem takeEvent_eq_afterTaking (e : Event) (rest : List Event) : takeEvent e rest s = afterTaking s e rest := rfl

/-- Two states with equal fields are equal. -/
@[ext] theorem State.ext_fields {s t : State} (h1 : s.cfg = t.cfg) (h2 : s.table = t.table) (h3 : s.phase = t.phase)
    (h4 : s.pending = t.pending) (h5 : s.taken = t.taken) (h6 : s.outputs = t.outputs) : s = t := by
  cases s; cases t; simp_all

end Sys2Proof.Machine
end

