-- ==== Sys2Proof/Laws/Builder.lean ====
section
/-! SUPPORT. Laws of the response builder (44_response_builder.md): what is built for each outcome, and that every response
fits the buffer (R231). -/

namespace Sys2Proof.Machine

/-- What a configuration with a meaning satisfies (R5, R6). -/
theorem Config.valid_iff (cfg : Config) : cfg.valid = true ↔
    cfg.maxDevices * (1 + cfg.dataLen) ≤ 0xFFFF ∧ cfg.maxDevices ≤ 0xFFFF ∧ 1 ≤ cfg.dataLen ∧ 8 ≤ cfg.respBufLen ∧
      1 ≤ cfg.maxDevices ∧ cfg.vendorName.length ≤ 255 ∧ cfg.productCode.length ≤ 255 ∧ cfg.revision.length ≤ 255 := by
  simp [Config.valid, and_assoc]

theorem crcLength_le_two (cfg : Config) : crcLength cfg ≤ 2 := by
  unfold crcLength; cases cfg.crcMode <;> simp

/-- The buffer holds at least eight bytes (R6). -/
theorem respBufLen_of_valid {cfg : Config} (h : cfg.valid = true) : 8 ≤ cfg.respBufLen :=
  ((Config.valid_iff cfg).mp h).2.2.2.1

/-- A body that fits is kept (R231). -/
theorem capacity_of_fits {cfg : Config} {body : List Byte} (fc : Byte)
    (h : body.length + crcLength cfg ≤ cfg.respBufLen) : capacity cfg fc body = body := by
  rw [capacity, if_neg (by omega)]

/-- A body that does not fit becomes exception 0x04 (R231). -/
theorem capacity_of_not_fits {cfg : Config} {body : List Byte} (fc : Byte)
    (h : cfg.respBufLen < body.length + crcLength cfg) : capacity cfg fc body = exceptionBody cfg fc .other := by
  rw [capacity, if_pos h]

@[simp] theorem exceptionBody_length (cfg : Config) (fc : Byte) (c : ExceptionCode) :
    (exceptionBody cfg fc c).length = 5 := rfl

/-- Exception responses always fit, so building one is the layout RS_EXC in its framing (R83, R231, R255). -/
theorem build_exception {cfg : Config} (h : cfg.valid = true) (fc : Byte) (c : ExceptionCode) :
    build cfg fc (.exception c) = exceptionFrame cfg fc (codeByte c) := by
  have h8 := respBufLen_of_valid h
  have h2 := crcLength_le_two cfg
  rw [build, replyBody, capacity_of_fits _ (by simp; omega)]
  rfl

/-- The echo of a WRITE always fits (R81, R231). -/
theorem build_writeOk {cfg : Config} (h : cfg.valid = true) (start qty : U16) :
    build cfg 0x10 (.writeOk (highByte start) (lowByte start) (highByte qty) (lowByte qty)) =
      frameOut cfg ([cfg.slaveAddr, 0x10] ++ split16 start ++ split16 qty) := by
  have h8 := respBufLen_of_valid h
  have h2 := crcLength_le_two cfg
  rw [build, replyBody, capacity_of_fits _ (by simp; omega)]
  rfl

/-- A read response that fits is the layout RS_READ in its framing (R80, R230). -/
theorem build_readOk {cfg : Config} (fc : Byte) (qty : Nat) (payload : List Byte)
    (h : 4 + payload.length + crcLength cfg ≤ cfg.respBufLen) :
    build cfg fc (.readOk qty payload) =
      frameOut cfg ([cfg.slaveAddr, 0x03, BitVec.ofNat 8 (2 * qty), 0x00] ++ payload) := by
  rw [build, replyBody, capacity_of_fits _ (by simp; omega)]

/-- A response too long for the buffer is exception 0x04 in its framing (R231). -/
theorem build_of_not_fits {cfg : Config} (fc : Byte) (r : Reply)
    (h : cfg.respBufLen < (replyBody cfg fc r).length + crcLength cfg) :
    build cfg fc r = exceptionFrame cfg fc 0x04 := by
  rw [build, capacity_of_not_fits _ h]
  rfl

/-- Every response fits the buffer (R231). -/
theorem build_length_le {cfg : Config} (h : cfg.valid = true) (fc : Byte) (r : Reply) :
    (build cfg fc r).length ≤ cfg.respBufLen := by
  have h8 := respBufLen_of_valid h
  have h2 := crcLength_le_two cfg
  by_cases hf : (replyBody cfg fc r).length + crcLength cfg ≤ cfg.respBufLen
  · rw [build, capacity_of_fits _ hf, frameOut_length]; exact hf
  · rw [build, capacity_of_not_fits _ (by omega), frameOut_length, exceptionBody_length]; omega

/-- The first two bytes of every response body: `SLAVE_ADDR`, then the function byte of the outcome or `fc | 0x80` (R79). -/
theorem build_header (cfg : Config) (fc : Byte) (r : Reply) :
    ∃ f rest, build cfg fc r = frameOut cfg (cfg.slaveAddr :: f :: rest) ∧
      (f = fc ||| 0x80 ∨ (replyBody cfg fc r)[1]? = some f) := by
  unfold build capacity
  split
  · exact ⟨_, _, rfl, .inl rfl⟩
  · cases r with
    | readOk qty payload => exact ⟨_, _, rfl, .inr rfl⟩
    | writeOk a b c d => exact ⟨_, _, rfl, .inr rfl⟩
    | idOk m a cl mf no n objects => exact ⟨_, _, rfl, .inr rfl⟩
    | exception c => exact ⟨_, _, rfl, .inl rfl⟩

/-- The length of the identification objects (R234). -/
@[simp] theorem idObjects_length (cfg : Config) :
    (idObjects cfg).length = 6 + cfg.vendorName.length + cfg.productCode.length + cfg.revision.length := by
  simp [idObjects, idObject]; omega

end Sys2Proof.Machine
end

