-- ==== Sys2Proof/Laws/Decode.lean ====
section
/-! SUPPORT. Laws of the validator as a decoder (42_frame_validator.md): one spec lemma per stage. -/

namespace Sys2Proof
open Machine

/-- The shape of RQ_READ operands (R74, R157). -/
theorem decodeRead_eq_some_iff (ops : List Byte) (i : Instr) : decodeRead ops = some i ↔
    ∃ s1 s0 q1 q0 r1 r2, ops = [s1, s0, q1, q0, r1, r2] ∧ i = .read (be16 s1 s0) (be16 q1 q0) := by
  unfold decodeRead
  split
  · simp only [Option.some.injEq]
    constructor
    · rintro rfl; exact ⟨_, _, _, _, _, _, rfl, rfl⟩
    · rintro ⟨_, _, _, _, _, _, h, rfl⟩; simp_all
  · rename_i hne
    simp only [reduceCtorEq, false_iff]
    rintro ⟨_, _, _, _, _, _, h, -⟩
    exact hne _ _ _ _ _ _ h

/-- The shape of RQ_ID operands (R76, R157). -/
theorem decodeIdentify_eq_some_iff (ops : List Byte) (i : Instr) : decodeIdentify ops = some i ↔
    ∃ m a o r1 r2 r3, ops = [m, a, o, r1, r2, r3] ∧ i = .identify m a o := by
  unfold decodeIdentify
  split
  · simp only [Option.some.injEq]
    constructor
    · rintro rfl; exact ⟨_, _, _, _, _, _, rfl, rfl⟩
    · rintro ⟨_, _, _, _, _, _, h, rfl⟩; simp_all
  · rename_i hne
    simp only [reduceCtorEq, false_iff]
    rintro ⟨_, _, _, _, _, _, h, -⟩
    exact hne _ _ _ _ _ _ h

/-- The shape of RQ_WRITE operands (R75, R158). -/
theorem decodeWrite_eq_some_iff (ops : List Byte) (i : Instr) : decodeWrite ops = some i ↔
    ∃ s1 s0 q1 q0 n data, ops = s1 :: s0 :: q1 :: q0 :: n :: data ∧ data.length = n.toNat ∧
      n.toNat = 2 * (be16 q1 q0).toNat ∧ i = .write (be16 s1 s0) (be16 q1 q0) n (be16s data) := by
  unfold decodeWrite
  split
  · rename_i s1 s0 q1 q0 n data
    constructor
    · intro h
      split at h
      · split at h
        · cases h; exact ⟨s1, s0, q1, q0, n, data, rfl, ‹_›, ‹_›, rfl⟩
        · cases h
      · cases h
    · rintro ⟨_, _, _, _, _, _, h, h1, h2, rfl⟩
      obtain ⟨rfl, rfl, rfl, rfl, rfl, rfl⟩ : _ ∧ _ ∧ _ ∧ _ ∧ _ ∧ _ := by simpa using h
      rw [if_pos h1, if_pos h2]
  · rename_i hne
    simp only [reduceCtorEq, false_iff]
    rintro ⟨_, _, _, _, _, _, h, -⟩
    exact hne _ _ _ _ _ _ h

/-- The operands of every operand form fit six bytes or are refused. -/
theorem decodeRead_eq_none_of_length {ops : List Byte} (h : ops.length ≠ 6) : decodeRead ops = none := by
  rw [Option.eq_none_iff_forall_ne_some]
  intro i hi
  obtain ⟨_, _, _, _, _, _, rfl, -⟩ := (decodeRead_eq_some_iff ops i).mp hi
  simp at h

theorem decodeIdentify_eq_none_of_length {ops : List Byte} (h : ops.length ≠ 6) : decodeIdentify ops = none := by
  rw [Option.eq_none_iff_forall_ne_some]
  intro i hi
  obtain ⟨_, _, _, _, _, _, rfl, -⟩ := (decodeIdentify_eq_some_iff ops i).mp hi
  simp at h

@[simp] theorem decodeBody_addressed (cfg : Config) (fc : Byte) (ops : List Byte) :
    decodeBody cfg (cfg.slaveAddr :: fc :: ops) = decodeFunction fc ops := by simp [decodeBody]

/-- Everything the stages 2 and 3 can answer (R155 to R159). -/
theorem decodeFunction_cases (fc : Byte) (ops : List Byte) :
    (fc = 0x03 ∧ (decodeFunction fc ops = .badShape fc ∧ decodeRead ops = none ∨
      ∃ i, decodeRead ops = some i ∧ decodeFunction fc ops = .request i)) ∨
    (fc = 0x10 ∧ (decodeFunction fc ops = .badShape fc ∧ decodeWrite ops = none ∨
      ∃ i, decodeWrite ops = some i ∧ decodeFunction fc ops = .request i)) ∨
    (fc = 0x2B ∧ (decodeFunction fc ops = .badShape fc ∧ decodeIdentify ops = none ∨
      ∃ i, decodeIdentify ops = some i ∧ decodeFunction fc ops = .request i)) ∨
    (fc ≠ 0x03 ∧ fc ≠ 0x10 ∧ fc ≠ 0x2B ∧ decodeFunction fc ops = .request (.unsupported fc)) := by
  unfold decodeFunction
  by_cases h1 : fc = 0x03
  · left
    refine ⟨h1, ?_⟩
    cases h : decodeRead ops <;> simp [h1]
  by_cases h2 : fc = 0x10
  · right; left
    refine ⟨h2, ?_⟩
    cases h : decodeWrite ops <;> simp [h2]
  by_cases h3 : fc = 0x2B
  · right; right; left
    refine ⟨h3, ?_⟩
    cases h : decodeIdentify ops <;> simp [h3]
  · right; right; right
    exact ⟨h1, h2, h3, by rw [if_neg h1, if_neg h2, if_neg h3]⟩

/-- A function stage never discards (R154). -/
theorem decodeFunction_ne_discard (fc : Byte) (ops : List Byte) (why : DiscardReason) :
    decodeFunction fc ops ≠ .discard why := by
  obtain ⟨-, ⟨h, -⟩ | ⟨_, -, h⟩⟩ | ⟨-, ⟨h, -⟩ | ⟨_, -, h⟩⟩ | ⟨-, ⟨h, -⟩ | ⟨_, -, h⟩⟩ | ⟨-, -, -, h⟩ :=
    decodeFunction_cases fc ops <;> rw [h] <;> simp

/-- Everything the validator can answer (R150): a discard, where the CRC stage fails or the body does not start with
`SLAVE_ADDR` and a function byte; else what the function stages answer. -/
theorem decodeFrame_cases (cfg : Config) (frame : List Byte) :
    (∃ why, decodeFrame cfg frame = .discard why ∧
      ¬∃ fc ops, stripCrc cfg frame = some (cfg.slaveAddr :: fc :: ops)) ∨
    (∃ fc ops, stripCrc cfg frame = some (cfg.slaveAddr :: fc :: ops) ∧
      decodeFrame cfg frame = decodeFunction fc ops) := by
  unfold decodeFrame
  cases h : stripCrc cfg frame with
  | none => exact .inl ⟨_, rfl, by simp⟩
  | some body =>
    match body with
    | [] => exact .inl ⟨_, rfl, by simp⟩
    | addr :: rest =>
      by_cases ha : addr = cfg.slaveAddr
      · subst ha
        match rest with
        | [] => exact .inl ⟨_, by simp [decodeBody]; rfl, by simp⟩
        | fc :: ops => exact .inr ⟨fc, ops, rfl, by simp⟩
      · exact .inl ⟨_, by simp [decodeBody, ha]; rfl, by simp [ha]⟩

/-- A frame whose body is addressed and names a function reaches the function stages. -/
theorem decodeFrame_of_addressed {cfg : Config} {frame : List Byte} {fc : Byte} {ops : List Byte}
    (h : stripCrc cfg frame = some (cfg.slaveAddr :: fc :: ops)) : decodeFrame cfg frame = decodeFunction fc ops := by
  simp [decodeFrame, h]

end Sys2Proof
end

