-- ==== Sys2Proof/Laws/Table.lean ====
section
/-! SUPPORT. Laws of the device table (40_device_table.md): what each operation reads and writes, and that each keeps the
table invariant (10_state.md R23). -/

namespace Sys2Proof.Machine

/-! ## Slots -/

@[simp] theorem putSlot_count (t : DeviceTable) (k : Nat) (sl : Slot) : (putSlot t k sl).count = t.count := rfl

@[simp] theorem putSlot_slots_length (t : DeviceTable) (k : Nat) (sl : Slot) :
    (putSlot t k sl).slots.length = t.slots.length := by simp [putSlot]

/-- A slot lies outside the arena exactly where its index does; there it holds nothing. -/
theorem slotAt_of_length_le {t : DeviceTable} {k : Nat} (h : t.slots.length ≤ k) : slotAt t k = none := by
  simp [slotAt, List.getElem?_eq_none h]

theorem lt_length_of_slotAt {t : DeviceTable} {k : Nat} {sl : Slot} (h : slotAt t k = some sl) : k < t.slots.length := by
  by_contra hk
  simp [slotAt_of_length_le (Nat.le_of_not_lt hk)] at h

/-- Putting a record changes the one slot, where the arena has it. -/
theorem slotAt_putSlot (t : DeviceTable) (k : Nat) (sl : Slot) (j : Nat) :
    slotAt (putSlot t k sl) j = if j = k ∧ k < t.slots.length then some sl else slotAt t j := by
  simp only [slotAt, putSlot, List.getElem?_set]
  by_cases hj : k = j
  · subst hj
    by_cases hk : k < t.slots.length
    · simp [hk]
    · simp [hk]
  · have : ¬j = k := fun h => hj h.symm
    simp [hj, this]

theorem slotAt_putSlot_ne (t : DeviceTable) {k j : Nat} (sl : Slot) (h : j ≠ k) :
    slotAt (putSlot t k sl) j = slotAt t j := by simp [slotAt_putSlot, h]

theorem slotAt_putSlot_self {t : DeviceTable} {k : Nat} (sl : Slot) (h : k < t.slots.length) :
    slotAt (putSlot t k sl) k = some sl := by simp [slotAt_putSlot, h]

/-! ## `read(k)` -/

/-- `read(k)` gives a record exactly where `k` is below the count and the slot holds that record (R105). -/
theorem readSlot_eq_ok_iff (t : DeviceTable) (k : Nat) (sl : Slot) :
    readSlot t k = .ok sl ↔ k < t.count ∧ slotAt t k = some sl := by
  unfold readSlot slotAt
  by_cases hk : k < t.count
  · rcases h : t.slots[k]? with _ | _ | sl' <;> simp [hk]
  · simp [hk]

/-- `read(k)` fails in one way only (R105). -/
theorem readSlot_eq_error (t : DeviceTable) (k : Nat) (f : Fault) (h : readSlot t k = .error f) :
    f = .unpopulatedSlot := by
  unfold readSlot at h
  split at h
  · split at h <;> simp_all
  · simp_all

/-- In a well-formed table, slot `k` below the count holds a record of the right shape (R22, R23). -/
theorem DeviceTable.Wf.readSlot_ok {cfg : Config} {t : DeviceTable} (h : t.Wf cfg) {k : Nat} (hk : k < t.count) :
    ∃ sl, readSlot t k = .ok sl ∧ slotAt t k = some sl ∧ sl.data.length = cfg.dataLen := by
  obtain ⟨hlen, hcap, hlow, hshape, -⟩ := h
  have hk' : k < t.slots.length := by omega
  obtain ⟨sl, hsl⟩ := Option.isSome_iff_exists.mp ((hlow k hk').mpr hk)
  have := hshape k hk'
  rw [hsl] at this
  exact ⟨sl, (readSlot_eq_ok_iff t k sl).mpr ⟨hk, hsl⟩, hsl, by simpa using this⟩

/-- In a well-formed table, a record stands below the count and has the right shape. -/
theorem DeviceTable.Wf.slotAt_some {cfg : Config} {t : DeviceTable} (h : t.Wf cfg) {k : Nat} {sl : Slot}
    (hs : slotAt t k = some sl) : k < t.count ∧ sl.data.length = cfg.dataLen := by
  obtain ⟨-, -, hlow, hshape, -⟩ := h
  have hk := lt_length_of_slotAt hs
  have := hshape k hk
  rw [hs] at this
  exact ⟨(hlow k hk).mp (by simp [hs]), by simpa using this⟩

/-! ## `write_data` -/

@[simp] theorem overwrite_length (bytes data : List Byte) (offset : Nat) :
    (overwrite data offset bytes).length = data.length := by
  induction bytes generalizing data offset with
  | nil => rfl
  | cons b bs ih => simp [overwrite, ih]

/-- Overwriting leaves every byte outside the range written as it was. -/
theorem overwrite_getElem?_outside (bytes data : List Byte) (offset j : Nat)
    (h : j < offset ∨ offset + bytes.length ≤ j) : (overwrite data offset bytes)[j]? = data[j]? := by
  induction bytes generalizing data offset with
  | nil => rfl
  | cons b bs ih =>
    simp only [List.length_cons] at h
    rw [overwrite, ih _ _ (by omega), List.getElem?_set_ne (by omega)]

/-- Overwriting puts byte `i` at `offset + i` (R106). -/
theorem overwrite_getElem?_inside (bytes data : List Byte) (offset i : Nat) (hi : i < bytes.length)
    (h : offset + bytes.length ≤ data.length) : (overwrite data offset bytes)[offset + i]? = bytes[i]? := by
  induction bytes generalizing data offset i with
  | nil => simp at hi
  | cons b bs ih =>
    simp only [List.length_cons] at h hi
    cases i with
    | zero =>
      rw [overwrite, overwrite_getElem?_outside _ _ _ _ (by omega)]
      simp [List.getElem?_set_self (show offset < data.length by omega)]
    | succ i =>
      have := ih (data.set offset b) (offset + 1) i (by omega) (by simp; omega)
      rw [overwrite, show offset + (i + 1) = offset + 1 + i by omega, this, List.getElem?_cons_succ]

/-- Everything `write_data` can do: reject and write nothing, or put one record whose data bytes are overwritten (R106). -/
theorem writeData_cases (cfg : Config) (t : DeviceTable) (k offset : Nat) (bytes : List Byte) :
    (writeData cfg t k offset bytes = t ∧ ∀ sl, readSlot t k = .ok sl → cfg.dataLen < offset + bytes.length) ∨
    ∃ sl, readSlot t k = .ok sl ∧ offset + bytes.length ≤ cfg.dataLen ∧
      writeData cfg t k offset bytes = putSlot t k { sl with data := overwrite sl.data offset bytes } := by
  unfold writeData
  by_cases ho : offset + bytes.length ≤ cfg.dataLen
  · cases hr : readSlot t k with
    | error f => left; simp
    | ok sl => right; exact ⟨sl, rfl, ho, by simp [ho]⟩
  · left
    simp only [if_neg ho, true_and]
    intro sl _
    omega

@[simp] theorem writeData_count (cfg : Config) (t : DeviceTable) (k offset : Nat) (bytes : List Byte) :
    (writeData cfg t k offset bytes).count = t.count := by
  obtain ⟨h, -⟩ | ⟨sl, -, -, h⟩ := writeData_cases cfg t k offset bytes <;> simp [h]

@[simp] theorem writeData_slots_length (cfg : Config) (t : DeviceTable) (k offset : Nat) (bytes : List Byte) :
    (writeData cfg t k offset bytes).slots.length = t.slots.length := by
  obtain ⟨h, -⟩ | ⟨sl, -, -, h⟩ := writeData_cases cfg t k offset bytes <;> simp [h]

/-- `write_data` never changes which slots hold records, nor their identity, type or the length of their data (R106). -/
theorem writeData_slotAt (cfg : Config) (t : DeviceTable) (k offset : Nat) (bytes : List Byte) (j : Nat) :
    slotAt (writeData cfg t k offset bytes) j = slotAt t j ∨
    ∃ sl, j = k ∧ slotAt t j = some sl ∧
      slotAt (writeData cfg t k offset bytes) j = some { sl with data := overwrite sl.data offset bytes } := by
  obtain ⟨h, -⟩ | ⟨sl, hr, -, h⟩ := writeData_cases cfg t k offset bytes
  · exact .inl (by rw [h])
  · have hs := ((readSlot_eq_ok_iff t k sl).mp hr).2
    by_cases hj : j = k
    · subst hj
      exact .inr ⟨sl, rfl, hs, by rw [h, slotAt_putSlot_self _ (lt_length_of_slotAt hs)]⟩
    · exact .inl (by rw [h, slotAt_putSlot_ne _ _ hj])

@[simp] theorem writeData_identAt (cfg : Config) (t : DeviceTable) (k offset : Nat) (bytes : List Byte) (j : Nat) :
    identAt (writeData cfg t k offset bytes) j = identAt t j := by
  unfold identAt
  obtain h | ⟨sl, -, hs, h⟩ := writeData_slotAt cfg t k offset bytes j <;> simp_all

@[simp] theorem writeData_typAt (cfg : Config) (t : DeviceTable) (k offset : Nat) (bytes : List Byte) (j : Nat) :
    typAt (writeData cfg t k offset bytes) j = typAt t j := by
  unfold typAt
  obtain h | ⟨sl, -, hs, h⟩ := writeData_slotAt cfg t k offset bytes j <;> simp_all

/-! ## What keeps the table invariant -/

/-- Replacing a record by one of the same identity and shape keeps the invariant. -/
theorem DeviceTable.Wf.after_putSlot {cfg : Config} {t : DeviceTable} (h : t.Wf cfg) {k : Nat} {sl : Slot}
    (hk : k < t.count) (hid : identAt t k = some sl.ident) (hlen : sl.data.length = cfg.dataLen) :
    (putSlot t k sl).Wf cfg := by
  obtain ⟨h1, h2, h3, h4, h5⟩ := h
  have hkl : k < t.slots.length := by omega
  have hident : ∀ j, identAt (putSlot t k sl) j = identAt t j := by
    intro j
    by_cases hj : j = k
    · subst hj; simp [identAt, slotAt_putSlot_self sl hkl, ← hid]
    · simp [identAt, slotAt_putSlot_ne t sl hj]
  refine ⟨by simpa, h2, ?_, ?_, ?_⟩
  · intro j hj
    by_cases hjk : j = k
    · subst hjk; simp [slotAt_putSlot_self sl hkl, hk]
    · rw [slotAt_putSlot_ne t sl hjk]; exact h3 j (by simpa using hj)
  · intro j hj
    by_cases hjk : j = k
    · subst hjk; simp [slotAt_putSlot_self sl hkl, hlen]
    · rw [slotAt_putSlot_ne t sl hjk]; exact h4 j (by simpa using hj)
  · intro i hi j hj hij
    rw [hident, hident]
    exact h5 i hi j hj hij

/-- `write_data` keeps the table invariant. -/
theorem DeviceTable.Wf.after_writeData {cfg : Config} {t : DeviceTable} (h : t.Wf cfg) (k offset : Nat) (bytes : List Byte) :
    (writeData cfg t k offset bytes).Wf cfg := by
  obtain ⟨e, -⟩ | ⟨sl, hr, -, e⟩ := writeData_cases cfg t k offset bytes
  · rw [e]; exact h
  · rw [e]
    obtain ⟨hk, hs⟩ := (readSlot_eq_ok_iff t k sl).mp hr
    exact h.after_putSlot hk (by simp [identAt, hs]) (by simpa using (h.slotAt_some hs).2)

/-- The empty table is well formed. -/
theorem DeviceTable.Wf.of_empty (cfg : Config) : (DeviceTable.empty cfg).Wf cfg := by
  have hs : ∀ k, slotAt (DeviceTable.empty cfg) k = none := by
    intro k
    simp only [slotAt, DeviceTable.empty, List.getElem?_replicate]
    split <;> rfl
  refine ⟨by simp [DeviceTable.empty], Nat.zero_le _, ?_, ?_, ?_⟩
  · intro k _; rw [hs]; simp [DeviceTable.empty]
  · intro k _; simp [hs]
  · intro j hj; exact absurd hj (Nat.not_lt_zero j)

/-- `Clear` on a table of `MAX_DEVICES` slots gives the empty table (R104). -/
theorem tableClear_eq_empty {cfg : Config} {t : DeviceTable} (h : t.slots.length = cfg.maxDevices) :
    tableClear t = DeviceTable.empty cfg := by
  simp [tableClear, DeviceTable.empty, ← h]

/-! ## The identity search and AppendOrUpdate -/

/-- Everything the identity search can answer: a first match, no match among populated slots, or the fault of an
unpopulated slot (R101, R102). -/
theorem findIdent_cases (t : DeviceTable) (identity : Ident) (n : Nat) : ∀ k,
    (∃ j sl, findIdent t identity k n = .ok (some j) ∧ k ≤ j ∧ j < k + n ∧ readSlot t j = .ok sl ∧ sl.ident = identity ∧
      ∀ i sl', k ≤ i → i < j → readSlot t i = .ok sl' → sl'.ident ≠ identity) ∨
    (findIdent t identity k n = .ok none ∧
      ∀ j, k ≤ j → j < k + n → ∃ sl, readSlot t j = .ok sl ∧ sl.ident ≠ identity) ∨
    (findIdent t identity k n = .error .unpopulatedSlot ∧
      ∃ j, k ≤ j ∧ j < k + n ∧ readSlot t j = .error .unpopulatedSlot) := by
  induction n with
  | zero => intro k; right; left; exact ⟨rfl, fun j h1 h2 => by omega⟩
  | succ n ih =>
    intro k
    unfold findIdent
    cases hr : readSlot t k with
    | error f =>
      cases readSlot_eq_error t k f hr
      right; right
      exact ⟨rfl, k, le_refl k, by omega, hr⟩
    | ok sl =>
      by_cases hid : sl.ident = identity
      · left
        exact ⟨k, sl, by simp [hid], le_refl k, by omega, hr, hid, fun i _ h1 h2 => by omega⟩
      · simp only [if_neg hid]
        obtain ⟨j, sj, e, h1, h2, h3, h4, h5⟩ | ⟨e, h⟩ | ⟨e, j, h1, h2, h3⟩ := ih (k + 1)
        · left
          refine ⟨j, sj, e, by omega, by omega, h3, h4, fun i sl' hi hij hsl' => ?_⟩
          by_cases hik : i = k
          · subst hik; rw [hr] at hsl'; cases hsl'; exact hid
          · exact h5 i sl' (by omega) hij hsl'
        · right; left
          refine ⟨e, fun j h1 h2 => ?_⟩
          by_cases hjk : j = k
          · subst hjk; exact ⟨sl, hr, hid⟩
          · exact h j (by omega) (by omega)
        · right; right
          exact ⟨e, j, by omega, by omega, h3⟩

/-- Everything AppendOrUpdate can do to a table (R101): update the first slot whose identity matches; append to the slot at
the count; leave a full table alone; or fault on an unpopulated slot. -/
theorem tableAppendOrUpdate_cases (cfg : Config) (t : DeviceTable) (identity : Ident) (typ : Byte) (data : List Byte) :
    (∃ k, k < t.count ∧ identAt t k = some identity ∧
      tableAppendOrUpdate cfg t identity typ data = .ok (putSlot t k ⟨identity, typ, data⟩, .updated)) ∨
    ((∀ k, k < t.count → ∃ sl, slotAt t k = some sl ∧ sl.ident ≠ identity) ∧ t.count < cfg.maxDevices ∧
      tableAppendOrUpdate cfg t identity typ data =
        .ok ({ putSlot t t.count ⟨identity, typ, data⟩ with count := t.count + 1 }, .appended)) ∨
    ((∀ k, k < t.count → ∃ sl, slotAt t k = some sl ∧ sl.ident ≠ identity) ∧ cfg.maxDevices ≤ t.count ∧
      tableAppendOrUpdate cfg t identity typ data = .ok (t, .ignored)) ∨
    (tableAppendOrUpdate cfg t identity typ data = .error .unpopulatedSlot ∧
      ∃ k, k < t.count ∧ readSlot t k = .error .unpopulatedSlot) := by
  unfold tableAppendOrUpdate
  obtain ⟨j, sl, e, -, h2, h3, h4, -⟩ | ⟨e, h⟩ | ⟨e, j, -, h2, h3⟩ := findIdent_cases t identity t.count 0
  · left
    rw [readSlot_eq_ok_iff] at h3
    exact ⟨j, h3.1, by simp [identAt, h3.2, h4], by simp [e]⟩
  · have hno : ∀ k, k < t.count → ∃ sl, slotAt t k = some sl ∧ sl.ident ≠ identity := by
      intro k hk
      obtain ⟨sl, h5, h6⟩ := h k (Nat.zero_le k) (by omega)
      exact ⟨sl, ((readSlot_eq_ok_iff t k sl).mp h5).2, h6⟩
    by_cases hc : t.count < cfg.maxDevices
    · right; left; exact ⟨hno, hc, by simp [e, hc]⟩
    · right; right; left; exact ⟨hno, by omega, by simp [e, hc]⟩
  · right; right; right
    exact ⟨by simp [e], j, by omega, h3⟩

/-- AppendOrUpdate keeps the table invariant, and a well-formed table makes it answer. -/
theorem DeviceTable.Wf.after_appendOrUpdate {cfg : Config} {t : DeviceTable} (h : t.Wf cfg) (identity : Ident) (typ : Byte)
    {data : List Byte} (hdata : data.length = cfg.dataLen) :
    ∃ u r, tableAppendOrUpdate cfg t identity typ data = .ok (u, r) ∧ u.Wf cfg := by
  obtain ⟨k, hk, hid, e⟩ | ⟨hno, hc, e⟩ | ⟨-, -, e⟩ | ⟨-, k, hk, hr⟩ :=
    tableAppendOrUpdate_cases cfg t identity typ data
  · exact ⟨_, _, e, h.after_putSlot hk hid hdata⟩
  · refine ⟨_, _, e, ?_⟩
    obtain ⟨h1, h2, h3, h4, h5⟩ := h
    have hcl : t.count < t.slots.length := by omega
    have hself : slotAt { putSlot t t.count ⟨identity, typ, data⟩ with count := t.count + 1 } t.count =
        some ⟨identity, typ, data⟩ := slotAt_putSlot_self (t := t) ⟨identity, typ, data⟩ hcl
    have hother : ∀ j, j ≠ t.count →
        slotAt { putSlot t t.count ⟨identity, typ, data⟩ with count := t.count + 1 } j = slotAt t j :=
      fun j hj => slotAt_putSlot_ne t ⟨identity, typ, data⟩ hj
    refine ⟨by simpa using h1, by simpa using hc, ?_, ?_, ?_⟩
    · intro j hj
      by_cases hjc : j = t.count
      · subst hjc; simp [hself]
      · rw [hother j hjc, h3 j (by simpa using hj)]
        show j < t.count ↔ j < t.count + 1
        omega
    · intro j hj
      by_cases hjc : j = t.count
      · subst hjc; simp [hself, hdata]
      · rw [hother j hjc]; exact h4 j (by simpa using hj)
    · intro i hi j hj hij
      have hi' : i < t.count + 1 := hi
      have hj' : j < t.count + 1 := hj
      have hnew : ∀ m, m < t.count → identAt t m ≠ some identity := by
        intro m hm
        obtain ⟨sl, hs, hne⟩ := hno m hm
        simp [identAt, hs, hne]
      by_cases hic : i = t.count
      · have hjc : j ≠ t.count := by omega
        have := hnew j (by omega)
        subst hic
        simp only [identAt, hself, hother j hjc] at this ⊢
        exact fun e => this e.symm
      · by_cases hjc : j = t.count
        · have := hnew i (by omega)
          subst hjc
          simp only [identAt, hself, hother i hic] at this ⊢
          exact this
        · have := h5 i (by omega) j (by omega) hij
          simpa only [identAt, hother i hic, hother j hjc] using this
  · exact ⟨_, _, e, h⟩
  · obtain ⟨sl, e, -⟩ := h.readSlot_ok hk
    rw [e] at hr; cases hr

end Sys2Proof.Machine
end

