-- ==== Sys2Proof/Laws/Mapper.lean ====
section
/-! SUPPORT. Laws of the register mapper (41_register_mapper.md): the address map and its inverse, register reads, the two
mapper passes, and what the commit of a write changes. -/

namespace Sys2Proof.Machine

variable (cfg : Config) (t : DeviceTable)

theorem blockSize_pos : 0 < cfg.blockSize := by unfold Config.blockSize; omega

/-! ## The address map (R121, R132) -/

@[simp] theorem decodeAddr_zero : decodeAddr cfg 0 = .count := rfl

theorem decodeAddr_type (k : Nat) : decodeAddr cfg (1 + k * cfg.blockSize) = .type k := by
  have hp := blockSize_pos cfg
  simp [decodeAddr, Nat.mul_div_cancel k hp]

theorem decodeAddr_data (k : Nat) {j : Nat} (hj : j < cfg.dataLen) :
    decodeAddr cfg (2 + k * cfg.blockSize + j) = .data k j := by
  have hp := blockSize_pos cfg
  have hb : 1 + j < cfg.blockSize := by unfold Config.blockSize; omega
  have e : 2 + k * cfg.blockSize + j - 1 = 1 + j + k * cfg.blockSize := by omega
  have hd : (1 + j + k * cfg.blockSize) / cfg.blockSize = k := by
    rw [Nat.add_mul_div_right _ _ hp, Nat.div_eq_of_lt hb, Nat.zero_add]
  have hm : (1 + j + k * cfg.blockSize) % cfg.blockSize = 1 + j := by
    rw [Nat.add_mul_mod_self_right, Nat.mod_eq_of_lt hb]
  unfold decodeAddr
  rw [if_neg (by omega), e, hd, hm, if_neg (by omega)]
  simp

/-- The three shapes of an address: 0; the type register of a block; a data register of a block (R121). -/
theorem decodeAddr_cases (a : Nat) :
    (a = 0 ∧ decodeAddr cfg a = .count) ∨
    (∃ k, a = 1 + k * cfg.blockSize ∧ decodeAddr cfg a = .type k) ∨
    (∃ k j, j < cfg.dataLen ∧ a = 2 + k * cfg.blockSize + j ∧ decodeAddr cfg a = .data k j) := by
  have hp := blockSize_pos cfg
  by_cases h0 : a = 0
  · exact .inl ⟨h0, by simp [h0]⟩
  · right
    have hdm := Nat.div_add_mod' (a - 1) cfg.blockSize
    have hlt := Nat.mod_lt (a - 1) hp
    by_cases hm : (a - 1) % cfg.blockSize = 0
    · exact .inl ⟨(a - 1) / cfg.blockSize, by omega, by simp [decodeAddr, h0, hm]⟩
    · refine .inr ⟨(a - 1) / cfg.blockSize, (a - 1) % cfg.blockSize - 1, ?_, by omega, by simp [decodeAddr, h0, hm]⟩
      have : cfg.blockSize = 1 + cfg.dataLen := rfl
      omega

/-- The inverse gives every address back (R132). -/
@[simp] theorem addrOf_decodeAddr (a : Nat) : addrOf cfg (decodeAddr cfg a) = a := by
  obtain ⟨h, e⟩ | ⟨k, h, e⟩ | ⟨k, j, -, h, e⟩ := decodeAddr_cases cfg a <;> rw [e, h] <;> rfl

/-- Distinct addresses name distinct fields (R128, R132). -/
theorem decodeAddr_injective {a b : Nat} (h : decodeAddr cfg a = decodeAddr cfg b) : a = b := by
  rw [← addrOf_decodeAddr cfg a, h, addrOf_decodeAddr]

/-- A register the master may write is a data register, and conversely (R25, R60). -/
theorem readOnly_eq_false_iff (a : Nat) : readOnly cfg a = false ↔ ∃ k j, decodeAddr cfg a = .data k j := by
  unfold readOnly
  cases decodeAddr cfg a <;> simp

/-- The registers a master may not write, by address: 0 and the first register of each block (R60). -/
theorem readOnly_eq_true_iff (a : Nat) : readOnly cfg a = true ↔ a = 0 ∨ (a - 1) % cfg.blockSize = 0 := by
  unfold readOnly decodeAddr
  by_cases h0 : a = 0
  · simp [h0]
  · by_cases hm : (a - 1) % cfg.blockSize = 0 <;> simp [h0, hm]

/-- An address below `TOP` lies in the block of a device below the count (R60, R122). -/
theorem device_lt_of_le_top {k r : Nat} (h : 1 + k * cfg.blockSize + r ≤ top cfg t) : k < t.count := by
  by_contra hk
  have := Nat.mul_le_mul_right cfg.blockSize (Nat.le_of_not_lt hk)
  unfold top at h
  omega

/-- Every register of a device below the count is at or below `TOP` (R60). -/
theorem le_top_of_device_lt {k r : Nat} (hk : k < t.count) (hr : r ≤ cfg.dataLen) :
    1 + k * cfg.blockSize + r ≤ top cfg t := by
  have h1 : (k + 1) * cfg.blockSize ≤ t.count * cfg.blockSize := Nat.mul_le_mul_right _ hk
  rw [Nat.add_mul] at h1
  have h2 : cfg.blockSize = 1 + cfg.dataLen := rfl
  unfold top
  omega

/-! ## Register reads (R126) -/

theorem regRead_count : regRead cfg t 0 = .ok (BitVec.ofNat 16 t.count) := rfl

theorem regRead_type {k : Nat} {sl : Slot} (h : readSlot t k = .ok sl) :
    regRead cfg t (1 + k * cfg.blockSize) = .ok (zext16 sl.typ) := by
  simp [regRead, decodeAddr_type, h]

theorem regRead_data {k j : Nat} {sl : Slot} {b : Byte} (h : readSlot t k = .ok sl) (hj : j < cfg.dataLen)
    (hb : sl.data[j]? = some b) : regRead cfg t (2 + k * cfg.blockSize + j) = .ok (zext16 b) := by
  simp [regRead, decodeAddr_data cfg k hj, h, hb]

/-- A register read of a well-formed table answers at every allocated address (R123, R126). -/
theorem regRead_ok_of_le_top {cfg : Config} {t : DeviceTable} (hw : t.Wf cfg) {a : Nat} (ha : a ≤ top cfg t) :
    ∃ v, regRead cfg t a = .ok v := by
  obtain ⟨h, -⟩ | ⟨k, h, -⟩ | ⟨k, j, hj, h, -⟩ := decodeAddr_cases cfg a
  · exact ⟨_, by rw [h]; exact regRead_count cfg t⟩
  · obtain ⟨sl, hr, -, -⟩ := hw.readSlot_ok (device_lt_of_le_top cfg t (k := k) (r := 0) (by omega))
    exact ⟨_, by rw [h]; exact regRead_type cfg t hr⟩
  · obtain ⟨sl, hr, -, hl⟩ := hw.readSlot_ok (device_lt_of_le_top cfg t (k := k) (r := 1 + j) (by omega))
    have hb : sl.data[j]? = some sl.data[j] := List.getElem?_eq_getElem (by omega)
    exact ⟨_, by rw [h]; exact regRead_data cfg t hr hj hb⟩

/-- A pass over `n` registers answers exactly when each register does, with the registers in order (R125). -/
theorem regsRead_eq_ok_iff (n : Nat) : ∀ (a : Nat) (vs : List U16),
    regsRead cfg t a n = .ok vs ↔ vs.length = n ∧ ∀ i v, vs[i]? = some v → regRead cfg t (a + i) = .ok v := by
  induction n with
  | zero =>
    intro a vs
    simp only [regsRead, Except.ok.injEq, List.length_eq_zero_iff]
    constructor
    · rintro rfl; exact ⟨rfl, by simp⟩
    · rintro ⟨rfl, -⟩; rfl
  | succ n ih =>
    intro a vs
    unfold regsRead
    constructor
    · intro h
      split at h
      · cases h
      · rename_i v hv
        split at h
        · cases h
        · rename_i ws hws
          cases h
          obtain ⟨hl, hall⟩ := (ih (a + 1) ws).mp hws
          refine ⟨by simp [hl], fun i w hw => ?_⟩
          cases i with
          | zero => simp at hw; simpa [← hw] using hv
          | succ i =>
            rw [show a + (i + 1) = a + 1 + i by omega]
            exact hall i w (by simpa using hw)
    · rintro ⟨hl, hall⟩
      cases vs with
      | nil => simp at hl
      | cons v ws =>
        have hv : regRead cfg t a = .ok v := hall 0 v (by simp)
        have hws : regsRead cfg t (a + 1) n = .ok ws := by
          rw [ih]
          refine ⟨by simpa using hl, fun i w hw => ?_⟩
          rw [show a + 1 + i = a + (i + 1) by omega]
          exact hall (i + 1) w (by simpa using hw)
        simp [hv, hws]

/-- A pass within `TOP` over a well-formed table answers (R123, R125). -/
theorem regsRead_ok_of_le_top {cfg : Config} {t : DeviceTable} (hw : t.Wf cfg) (n : Nat) : ∀ a : Nat,
    (n = 0 ∨ a + n - 1 ≤ top cfg t) → ∃ vs, regsRead cfg t a n = .ok vs := by
  induction n with
  | zero => intro a _; exact ⟨[], rfl⟩
  | succ n ih =>
    intro a h
    obtain ⟨v, hv⟩ := regRead_ok_of_le_top hw (a := a) (by omega)
    obtain ⟨vs, hvs⟩ := ih (a + 1) (by omega)
    exact ⟨v :: vs, by simp [regsRead, hv, hvs]⟩

/-! ## The two passes -/

/-- The quantity check (R124). -/
theorem quantityBad_eq_true {qty : Nat} (h : qty = 0 ∨ 0x7B < qty) : quantityBad qty = true := by
  simp only [quantityBad, Bool.or_eq_true, decide_eq_true_eq]
  exact h

theorem quantityBad_eq_false {qty : Nat} (h : ¬(qty = 0 ∨ 0x7B < qty)) : quantityBad qty = false := by
  simp only [quantityBad, Bool.or_eq_false_iff, decide_eq_false_iff_not]
  exact not_or.mp h

/-- Everything a read pass can answer, in the order of its checks (R125). -/
theorem mapRead_cases (start qty : Nat) :
    ((qty = 0 ∨ 0x7B < qty) ∧ mapRead cfg t start qty = .error .lengthError) ∨
    (1 ≤ qty ∧ qty ≤ 0x7B ∧ top cfg t < start + qty - 1 ∧ mapRead cfg t start qty = .error .addressError) ∨
    (1 ≤ qty ∧ qty ≤ 0x7B ∧ start + qty - 1 ≤ top cfg t ∧ (
      (∃ vs, regsRead cfg t start qty = .ok vs ∧ mapRead cfg t start qty = .ok vs) ∨
      (∃ f, regsRead cfg t start qty = .error f ∧ mapRead cfg t start qty = .fault f))) := by
  unfold mapRead
  by_cases hq : qty = 0 ∨ 0x7B < qty
  · exact .inl ⟨hq, by simp [quantityBad_eq_true hq]⟩
  · have hq' := quantityBad_eq_false hq
    right
    by_cases hr : top cfg t < start + qty - 1
    · exact .inl ⟨by omega, by omega, hr, by simp [hq', rangeBad, hr]⟩
    · refine .inr ⟨by omega, by omega, by omega, ?_⟩
      cases h : regsRead cfg t start qty with
      | ok vs => exact .inl ⟨vs, rfl, by simp [hq', rangeBad, hr]⟩
      | error f => exact .inr ⟨f, rfl, by simp [hq', rangeBad, hr]⟩

/-- A range has no read-only register exactly when every register of it is a data register (R127). -/
theorem any_readOnly_eq_false_iff (start qty : Nat) :
    (addresses start qty).any (readOnly cfg) = false ↔ ∀ i, i < qty → readOnly cfg (start + i) = false := by
  simp only [addresses, List.any_eq_false, List.mem_range'_1]
  constructor
  · intro h i hi
    have := h (start + i) (by omega)
    simpa using this
  · intro h a ha
    have := h (a - start) (by omega)
    rw [show start + (a - start) = a by omega] at this
    simp [this]

/-- Everything a write pass can answer, in the order of its checks (R127). -/
theorem mapWrite_cases (start qty : Nat) (values : List U16) :
    ((qty = 0 ∨ 0x7B < qty) ∧ mapWrite cfg t start qty values = .error .lengthError) ∨
    (1 ≤ qty ∧ qty ≤ 0x7B ∧ top cfg t < start + qty - 1 ∧ mapWrite cfg t start qty values = .error .addressError) ∨
    (1 ≤ qty ∧ qty ≤ 0x7B ∧ start + qty - 1 ≤ top cfg t ∧ (∃ i, i < qty ∧ readOnly cfg (start + i) = true) ∧
      mapWrite cfg t start qty values = .error .addressError) ∨
    (1 ≤ qty ∧ qty ≤ 0x7B ∧ start + qty - 1 ≤ top cfg t ∧ (∀ i, i < qty → readOnly cfg (start + i) = false) ∧
      (∃ v ∈ values, highByte v ≠ 0) ∧ mapWrite cfg t start qty values = .error .valueError) ∨
    (1 ≤ qty ∧ qty ≤ 0x7B ∧ start + qty - 1 ≤ top cfg t ∧ (∀ i, i < qty → readOnly cfg (start + i) = false) ∧
      (∀ v ∈ values, highByte v = 0) ∧
      mapWrite cfg t start qty values = .ok ((addresses start qty).map (decodeAddr cfg))) := by
  unfold mapWrite
  by_cases hq : qty = 0 ∨ 0x7B < qty
  · exact .inl ⟨hq, by simp [quantityBad_eq_true hq]⟩
  have hq' := quantityBad_eq_false hq
  by_cases hr : top cfg t < start + qty - 1
  · exact .inr (.inl ⟨by omega, by omega, hr, by simp [hq', rangeBad, hr]⟩)
  have hr' : rangeBad cfg t start qty = false := by simp [rangeBad]; omega
  by_cases ho : ∀ i, i < qty → readOnly cfg (start + i) = false
  · have ho' := (any_readOnly_eq_false_iff cfg start qty).mpr ho
    by_cases hv : ∀ v ∈ values, highByte v = 0
    · refine .inr (.inr (.inr (.inr ⟨by omega, by omega, by omega, ho, hv, ?_⟩)))
      have hv' : (values.any fun v => highByte v != 0) = false := by simpa [List.any_eq_false] using hv
      simp only [hq', hr', ho', hv', if_neg Bool.false_ne_true]
    · refine .inr (.inr (.inr (.inl ⟨by omega, by omega, by omega, ho, by simpa using hv, ?_⟩)))
      have hv' : (values.any fun v => highByte v != 0) = true := by simpa [List.any_eq_true] using hv
      simp only [hq', hr', ho', hv', if_neg Bool.false_ne_true, if_true]
  · have ho' : (addresses start qty).any (readOnly cfg) = true := by
      cases h : (addresses start qty).any (readOnly cfg)
      · exact absurd ((any_readOnly_eq_false_iff cfg start qty).mp h) ho
      · rfl
    refine .inr (.inr (.inl ⟨by omega, by omega, by omega, ?_, ?_⟩))
    · by_contra hn
      exact ho fun i hi => by
        cases h : readOnly cfg (start + i)
        · rfl
        · exact absurd ⟨i, hi, h⟩ hn
    · simp only [hq', hr', ho', if_neg Bool.false_ne_true, if_true]

/-- A range of data registers lies in one device's data block (R130). -/
theorem range_in_one_block {start qty : Nat} (hq : 1 ≤ qty)
    (h : ∀ i, i < qty → readOnly cfg (start + i) = false) :
    ∃ k, 2 + k * cfg.blockSize ≤ start ∧ start + qty ≤ 2 + k * cfg.blockSize + cfg.dataLen := by
  have h0 := (readOnly_eq_false_iff cfg start).mp (h 0 hq)
  obtain ⟨-, e⟩ | ⟨k, -, e⟩ | ⟨k, j, hj, hs, -⟩ := decodeAddr_cases cfg start
  · simp [e] at h0
  · simp [e] at h0
  · refine ⟨k, by omega, ?_⟩
    by_contra hlong
    have hro := h (cfg.dataLen - j) (by omega)
    have e : start + (cfg.dataLen - j) = 1 + (k + 1) * cfg.blockSize := by
      have : cfg.blockSize = 1 + cfg.dataLen := rfl
      rw [Nat.add_mul]; omega
    rw [e] at hro
    simp [readOnly, decodeAddr_type] at hro

/-- The registers of one device's data block are data registers (R60). -/
theorem data_range_not_readOnly {k start qty : Nat} (h1 : 2 + k * cfg.blockSize ≤ start)
    (h2 : start + qty ≤ 2 + k * cfg.blockSize + cfg.dataLen) : ∀ i, i < qty → readOnly cfg (start + i) = false := by
  intro i hi
  rw [readOnly_eq_false_iff]
  refine ⟨k, start + i - (2 + k * cfg.blockSize), ?_⟩
  have := decodeAddr_data cfg k (j := start + i - (2 + k * cfg.blockSize)) (by omega)
  rwa [show 2 + k * cfg.blockSize + (start + i - (2 + k * cfg.blockSize)) = start + i by omega] at this

/-! ## What a register write changes (R128) -/

@[simp] theorem fieldWrite_count (f : Field) (b : Byte) : (fieldWrite cfg t f b).count = t.count := by
  cases f <;> simp [fieldWrite]

@[simp] theorem fieldWrite_slots_length (f : Field) (b : Byte) :
    (fieldWrite cfg t f b).slots.length = t.slots.length := by cases f <;> simp [fieldWrite]

@[simp] theorem fieldWrite_identAt (f : Field) (b : Byte) (k : Nat) :
    identAt (fieldWrite cfg t f b) k = identAt t k := by cases f <;> simp [fieldWrite]

@[simp] theorem fieldWrite_typAt (f : Field) (b : Byte) (k : Nat) : typAt (fieldWrite cfg t f b) k = typAt t k := by
  cases f <;> simp [fieldWrite]

theorem DeviceTable.Wf.after_fieldWrite {cfg : Config} {t : DeviceTable} (h : t.Wf cfg) (f : Field) (b : Byte) :
    (fieldWrite cfg t f b).Wf cfg := by
  cases f with
  | count => exact h
  | type k => exact h
  | data k j => exact h.after_writeData k j [b]

/-- `read` after `write_data`: the record of the slot written has its data overwritten, every other slot reads the same. -/
theorem readSlot_writeData (k offset : Nat) (bytes : List Byte) (m : Nat) :
    readSlot (writeData cfg t k offset bytes) m = readSlot t m ∨
    ∃ sl, m = k ∧ readSlot t m = .ok sl ∧ offset + bytes.length ≤ cfg.dataLen ∧
      readSlot (writeData cfg t k offset bytes) m = .ok { sl with data := overwrite sl.data offset bytes } := by
  obtain ⟨e, -⟩ | ⟨sl, hr, ho, e⟩ := writeData_cases cfg t k offset bytes
  · exact .inl (by rw [e])
  · obtain ⟨hk, hs⟩ := (readSlot_eq_ok_iff t k sl).mp hr
    by_cases hm : m = k
    · subst hm
      refine .inr ⟨sl, rfl, hr, ho, ?_⟩
      rw [e, readSlot_eq_ok_iff]
      exact ⟨by simpa using hk, slotAt_putSlot_self _ (lt_length_of_slotAt hs)⟩
    · left
      rw [e]
      have : ¬k = m := fun h => hm h.symm
      simp [readSlot, putSlot, this]

/-- A register write leaves every other register as it was (R128). -/
theorem regRead_fieldWrite_ne (f : Field) (b : Byte) {a : Nat} (h : decodeAddr cfg a ≠ f) :
    regRead cfg (fieldWrite cfg t f b) a = regRead cfg t a := by
  cases f with
  | count => rfl
  | type k => rfl
  | data k j =>
    simp only [fieldWrite, regRead]
    cases hd : decodeAddr cfg a with
    | count => simp
    | type m =>
      obtain e | ⟨sl, -, hr, -, e⟩ := readSlot_writeData cfg t k j [b] m
      · simp [e]
      · simp [e, hr]
    | data m i =>
      obtain e | ⟨sl, hm, hr, -, e⟩ := readSlot_writeData cfg t k j [b] m
      · simp [e]
      · have hij : i ≠ j := by rintro rfl; exact h (by rw [hd, hm])
        have hout : (overwrite sl.data j [b])[i]? = sl.data[i]? :=
          overwrite_getElem?_outside [b] sl.data j i (by simp; omega)
        simp [e, hr, hout]

/-- A write to a data register that reads gives the byte written (R126, R128). -/
theorem regRead_fieldWrite_self (b : Byte) {a k j : Nat} (hd : decodeAddr cfg a = .data k j) {v : U16}
    (hv : regRead cfg t a = .ok v) : regRead cfg (fieldWrite cfg t (.data k j) b) a = .ok (zext16 b) := by
  have hj : j < cfg.dataLen := by
    obtain ⟨-, e⟩ | ⟨_, -, e⟩ | ⟨_, _, hj, -, e⟩ := decodeAddr_cases cfg a
    · rw [e] at hd; cases hd
    · rw [e] at hd; cases hd
    · rw [e] at hd; cases hd; exact hj
  simp only [regRead, hd] at hv ⊢
  cases hr : readSlot t k with
  | error f => simp [hr] at hv
  | ok sl =>
    have hjl : j < sl.data.length := by
      by_contra hn
      simp [hr, List.getElem?_eq_none (Nat.le_of_not_lt hn)] at hv
    obtain ⟨hk, hs⟩ := (readSlot_eq_ok_iff t k sl).mp hr
    have e : fieldWrite cfg t (.data k j) b = putSlot t k { sl with data := overwrite sl.data j [b] } := by
      simp [fieldWrite, writeData, hr, show j + 1 ≤ cfg.dataLen from hj]
    have hr' : readSlot (fieldWrite cfg t (.data k j) b) k = .ok { sl with data := overwrite sl.data j [b] } := by
      rw [e, readSlot_eq_ok_iff]
      exact ⟨by simpa using hk, slotAt_putSlot_self _ (lt_length_of_slotAt hs)⟩
    have hin : (overwrite sl.data j [b])[j]? = some b :=
      overwrite_getElem?_inside [b] sl.data j 0 (by simp) (by simp; omega)
    simp [hr', hin]

/-- Whether a register reads does not change by a write. -/
theorem regRead_fieldWrite_ok (f : Field) (b : Byte) {a : Nat} {v : U16} (hv : regRead cfg t a = .ok v) :
    ∃ w, regRead cfg (fieldWrite cfg t f b) a = .ok w := by
  by_cases h : decodeAddr cfg a = f
  · cases f with
    | count => exact ⟨v, hv⟩
    | type k => exact ⟨v, hv⟩
    | data k j => exact ⟨_, regRead_fieldWrite_self cfg t b h hv⟩
  · exact ⟨v, by rw [regRead_fieldWrite_ne cfg t f b h]; exact hv⟩

/-! ## What a commit changes (R128, R186) -/

@[simp] theorem commit_count (fs : List Field) : ∀ (t : DeviceTable) (vs : List U16),
    (commit cfg t fs vs).count = t.count := by
  induction fs with
  | nil => intro t vs; simp [commit]
  | cons f fs ih => intro t vs; cases vs <;> simp [commit, ih]

@[simp] theorem commit_slots_length (fs : List Field) : ∀ (t : DeviceTable) (vs : List U16),
    (commit cfg t fs vs).slots.length = t.slots.length := by
  induction fs with
  | nil => intro t vs; simp [commit]
  | cons f fs ih => intro t vs; cases vs <;> simp [commit, ih]

@[simp] theorem commit_identAt (fs : List Field) (k : Nat) : ∀ (t : DeviceTable) (vs : List U16),
    identAt (commit cfg t fs vs) k = identAt t k := by
  induction fs with
  | nil => intro t vs; simp [commit]
  | cons f fs ih => intro t vs; cases vs <;> simp [commit, ih]

@[simp] theorem commit_typAt (fs : List Field) (k : Nat) : ∀ (t : DeviceTable) (vs : List U16),
    typAt (commit cfg t fs vs) k = typAt t k := by
  induction fs with
  | nil => intro t vs; simp [commit]
  | cons f fs ih => intro t vs; cases vs <;> simp [commit, ih]

theorem DeviceTable.Wf.after_commit {cfg : Config} (fs : List Field) : ∀ {t : DeviceTable} (vs : List U16), t.Wf cfg →
    (commit cfg t fs vs).Wf cfg := by
  induction fs with
  | nil => intro t vs h; simpa [commit] using h
  | cons f fs ih =>
    intro t vs h
    cases vs with
    | nil => simpa [commit] using h
    | cons v vs => exact ih vs (h.after_fieldWrite f (lowByte v))

/-- A commit leaves every register outside its fields as it was (R128). -/
theorem regRead_commit_ne (fs : List Field) {a : Nat} : ∀ (t : DeviceTable) (vs : List U16),
    decodeAddr cfg a ∉ fs → regRead cfg (commit cfg t fs vs) a = regRead cfg t a := by
  induction fs with
  | nil => intro t vs _; simp [commit]
  | cons f fs ih =>
    intro t vs h
    simp only [List.mem_cons, not_or] at h
    cases vs with
    | nil => simp [commit]
    | cons v vs => rw [commit, ih _ _ h.2, regRead_fieldWrite_ne cfg t f _ h.1]

/-- The fields of a range are the fields of its addresses. -/
theorem decodeAddr_mem_fields_iff (start qty a : Nat) :
    decodeAddr cfg a ∈ (addresses start qty).map (decodeAddr cfg) ↔ start ≤ a ∧ a < start + qty := by
  simp only [addresses, List.mem_map, List.mem_range'_1]
  constructor
  · rintro ⟨b, hb, e⟩
    rw [← decodeAddr_injective cfg e]
    exact hb
  · intro h
    exact ⟨a, h, rfl⟩

/-- After the commit of a range of data registers that read, register `i` reads the low byte of value `i` (R128). -/
theorem regRead_commit_inside (vs : List U16) : ∀ (t : DeviceTable) (start : Nat),
    (∀ i, i < vs.length → readOnly cfg (start + i) = false) →
    (∀ i, i < vs.length → ∃ w, regRead cfg t (start + i) = .ok w) →
    ∀ i v, vs[i]? = some v →
      regRead cfg (commit cfg t ((addresses start vs.length).map (decodeAddr cfg)) vs) (start + i) =
        .ok (zext16 (lowByte v)) := by
  induction vs with
  | nil => intro t start _ _ i v h; simp at h
  | cons v vs ih =>
    intro t start hro hok i w hw
    have hro' : ∀ i, i < vs.length → readOnly cfg (start + 1 + i) = false := by
      intro i hi
      rw [show start + 1 + i = start + (i + 1) by omega]
      exact hro (i + 1) (by simpa using hi)
    have hok' : ∀ i, i < vs.length →
        ∃ w, regRead cfg (fieldWrite cfg t (decodeAddr cfg start) (lowByte v)) (start + 1 + i) = .ok w := by
      intro i hi
      obtain ⟨w, hw⟩ := hok (i + 1) (by simpa using hi)
      rw [show start + (i + 1) = start + 1 + i by omega] at hw
      exact regRead_fieldWrite_ok cfg t _ _ hw
    have estep : commit cfg t ((addresses start (v :: vs).length).map (decodeAddr cfg)) (v :: vs) =
        commit cfg (fieldWrite cfg t (decodeAddr cfg start) (lowByte v))
          ((addresses (start + 1) vs.length).map (decodeAddr cfg)) vs := by
      simp [addresses, List.range'_succ, commit]
    rw [estep]
    cases i with
    | zero =>
      have hv : v = w := by simpa using hw
      subst hv
      have hnot : decodeAddr cfg start ∉ (addresses (start + 1) vs.length).map (decodeAddr cfg) := by
        rw [decodeAddr_mem_fields_iff]; omega
      show regRead cfg _ start = _
      rw [regRead_commit_ne cfg _ _ _ hnot]
      obtain ⟨k, j, hd⟩ := (readOnly_eq_false_iff cfg start).mp (by simpa using hro 0 (by simp))
      obtain ⟨u, hu⟩ := hok 0 (by simp)
      rw [hd]
      exact regRead_fieldWrite_self cfg t (lowByte v) hd (by simpa using hu)
    | succ i =>
      have := ih _ (start + 1) hro' hok' i w (by simpa using hw)
      rwa [show start + 1 + i = start + (i + 1) by omega] at this

end Sys2Proof.Machine
end

