-- ==== Sys2Proof/Laws/Exec.lean ====
section
/-! SUPPORT. What each instruction, one event and one step can do: one lemma per meaning that lists every outcome
(43_dispatcher.md, 40_device_table.md, 70_reset_and_hazards.md). -/

namespace Sys2Proof.Machine

/-! ## The shared end of a transaction -/

/-- An instruction that runs has a configuration with a meaning and is well formed (R6, R107). -/
theorem guarded_eq_next {i : Instr} {s t : State} {run : Result} (h : guarded i s run = .next t) :
    s.cfg.valid = true ∧ i.wf s.cfg = true ∧ run = .next t := by
  unfold guarded at h
  split at h
  · split at h
    · exact ⟨‹_›, ‹_›, h⟩
    · cases h
  · cases h

theorem guarded_of_wf {i : Instr} {s : State} {run : Result} (hv : s.cfg.valid = true) (hw : i.wf s.cfg = true) :
    guarded i s run = run := by simp [guarded, hv, hw]

/-- Responding leaves the state answered, whatever the phase before (R180). -/
theorem respond_eq_answered (fc : Byte) (r : Reply) (p : Phase) (s : State) :
    respond fc r (setPhase p s) = answered s (build s.cfg fc r) := rfl

/-- Taking an exception leaves the state answered by the exception response, whatever the phase before (R255). -/
theorem raiseException_eq_answered {s : State} (h : s.cfg.valid = true) (fc : Byte) (c : ExceptionCode) (p : Phase) :
    raiseException fc c (setPhase p s) = answered s (exceptionFrame s.cfg fc (codeByte c)) := by
  rw [← build_exception h]; rfl

theorem raiseException_eq_answered' {s : State} (h : s.cfg.valid = true) (fc : Byte) (c : ExceptionCode) :
    raiseException fc c s = answered s (exceptionFrame s.cfg fc (codeByte c)) := by
  rw [← build_exception h]; rfl

/-! ## The requests -/

/-- READ in terms of the mapper pass (R182). -/
theorem execRead_eq {s : State} (hv : s.cfg.valid = true) (start qty : U16) :
    exec (.read start qty) s =
      match mapRead s.cfg s.table start.toNat qty.toNat with
      | .ok regs => .next (answered s (build s.cfg 0x03 (.readOk qty.toNat (split16s regs))))
      | .error e => .next (answered s (exceptionFrame s.cfg 0x03 (codeByte (errorCode e))))
      | .fault f => .fault f := by
  have e : exec (.read start qty) s = execRead start qty s := rfl
  rw [e, execRead, guarded_of_wf hv rfl]
  simp only [setPhase_cfg, setPhase_table]
  cases mapRead s.cfg s.table start.toNat qty.toNat with
  | ok regs => rfl
  | error e => exact congrArg Host.Outcome.next (raiseException_eq_answered hv _ _ _)
  | fault f => rfl

/-- Everything READ can do (R182). -/
theorem execRead_cases {s : State} (hv : s.cfg.valid = true) (start qty : U16) :
    ((qty.toNat = 0 ∨ 0x7B < qty.toNat) ∧
      exec (.read start qty) s = .next (answered s (exceptionFrame s.cfg 0x03 0x03))) ∨
    (1 ≤ qty.toNat ∧ qty.toNat ≤ 0x7B ∧ top s.cfg s.table < start.toNat + qty.toNat - 1 ∧
      exec (.read start qty) s = .next (answered s (exceptionFrame s.cfg 0x03 0x02))) ∨
    (1 ≤ qty.toNat ∧ qty.toNat ≤ 0x7B ∧ start.toNat + qty.toNat - 1 ≤ top s.cfg s.table ∧ (
      (∃ regs, regsRead s.cfg s.table start.toNat qty.toNat = .ok regs ∧ exec (.read start qty) s =
        .next (answered s (build s.cfg 0x03 (.readOk qty.toNat (split16s regs))))) ∨
      (∃ f, regsRead s.cfg s.table start.toNat qty.toNat = .error f ∧ exec (.read start qty) s = .fault f))) := by
  rw [execRead_eq hv]
  obtain ⟨h, hm⟩ | ⟨h1, h2, h3, hm⟩ | ⟨h1, h2, h3, ⟨regs, hr, hm⟩ | ⟨f, hr, hm⟩⟩ :=
    mapRead_cases s.cfg s.table start.toNat qty.toNat <;> rw [hm]
  · exact .inl ⟨h, rfl⟩
  · exact .inr (.inl ⟨h1, h2, h3, rfl⟩)
  · exact .inr (.inr ⟨h1, h2, h3, .inl ⟨regs, hr, rfl⟩⟩)
  · exact .inr (.inr ⟨h1, h2, h3, .inr ⟨f, hr, rfl⟩⟩)

/-- WRITE in terms of the mapper pass and the commit (R186). -/
theorem execWrite_eq {s : State} (hv : s.cfg.valid = true) (start qty : U16) (n : Byte) (values : List U16)
    (hw : (Instr.write start qty n values).wf s.cfg = true) :
    exec (.write start qty n values) s =
      match mapWrite s.cfg s.table start.toNat qty.toNat values with
      | .ok fields => .next (answered { s with table := commit s.cfg s.table fields values }
          (frameOut s.cfg ([s.cfg.slaveAddr, 0x10] ++ split16 start ++ split16 qty)))
      | .error e => .next (answered s (exceptionFrame s.cfg 0x10 (codeByte (errorCode e))))
      | .fault f => .fault f := by
  have e : exec (.write start qty n values) s = execWrite start qty n values s := rfl
  rw [e, execWrite, guarded_of_wf hv hw]
  simp only [setPhase_cfg, setPhase_table, raiseException_eq_answered hv, ← build_writeOk hv start qty]
  rfl

/-- Everything WRITE can do (R186). -/
theorem execWrite_cases {s : State} (hv : s.cfg.valid = true) (start qty : U16) (n : Byte) (values : List U16)
    (hw : (Instr.write start qty n values).wf s.cfg = true) :
    ((qty.toNat = 0 ∨ 0x7B < qty.toNat) ∧
      exec (.write start qty n values) s = .next (answered s (exceptionFrame s.cfg 0x10 0x03))) ∨
    (1 ≤ qty.toNat ∧ qty.toNat ≤ 0x7B ∧ top s.cfg s.table < start.toNat + qty.toNat - 1 ∧
      exec (.write start qty n values) s = .next (answered s (exceptionFrame s.cfg 0x10 0x02))) ∨
    (1 ≤ qty.toNat ∧ qty.toNat ≤ 0x7B ∧ start.toNat + qty.toNat - 1 ≤ top s.cfg s.table ∧
      (∃ i, i < qty.toNat ∧ readOnly s.cfg (start.toNat + i) = true) ∧
      exec (.write start qty n values) s = .next (answered s (exceptionFrame s.cfg 0x10 0x02))) ∨
    (1 ≤ qty.toNat ∧ qty.toNat ≤ 0x7B ∧ start.toNat + qty.toNat - 1 ≤ top s.cfg s.table ∧
      (∀ i, i < qty.toNat → readOnly s.cfg (start.toNat + i) = false) ∧ (∃ v ∈ values, highByte v ≠ 0) ∧
      exec (.write start qty n values) s = .next (answered s (exceptionFrame s.cfg 0x10 0x04))) ∨
    (1 ≤ qty.toNat ∧ qty.toNat ≤ 0x7B ∧ start.toNat + qty.toNat - 1 ≤ top s.cfg s.table ∧
      (∀ i, i < qty.toNat → readOnly s.cfg (start.toNat + i) = false) ∧ (∀ v ∈ values, highByte v = 0) ∧
      exec (.write start qty n values) s = .next (answered
        { s with table := commit s.cfg s.table ((addresses start.toNat qty.toNat).map (decodeAddr s.cfg)) values }
        (frameOut s.cfg ([s.cfg.slaveAddr, 0x10] ++ split16 start ++ split16 qty)))) := by
  rw [execWrite_eq hv start qty n values hw]
  obtain ⟨h, hm⟩ | ⟨h1, h2, h3, hm⟩ | ⟨h1, h2, h3, h4, hm⟩ | ⟨h1, h2, h3, h4, h5, hm⟩ | ⟨h1, h2, h3, h4, h5, hm⟩ :=
    mapWrite_cases s.cfg s.table start.toNat qty.toNat values <;> rw [hm]
  · exact .inl ⟨h, rfl⟩
  · exact .inr (.inl ⟨h1, h2, h3, rfl⟩)
  · exact .inr (.inr (.inl ⟨h1, h2, h3, h4, rfl⟩))
  · exact .inr (.inr (.inr (.inl ⟨h1, h2, h3, h4, h5, rfl⟩)))
  · exact .inr (.inr (.inr (.inr ⟨h1, h2, h3, h4, h5, rfl⟩)))

/-- IDENTIFY does one thing (R200). -/
theorem execIdentify_eq {s : State} (hv : s.cfg.valid = true) (m a o : Byte) :
    exec (.identify m a o) s = .next (answered s (build s.cfg 0x2B
      (.idOk m a s.cfg.conformityLevel 0x00 0x00 (BitVec.ofNat 8 objectsNumber) (idObjects s.cfg)))) := by
  have e : exec (.identify m a o) s = execIdentify m a o s := rfl
  rw [e, execIdentify, guarded_of_wf hv rfl]
  rfl

/-- UNSUPPORTED does one thing (R156). -/
theorem execUnsupported_eq {s : State} (hv : s.cfg.valid = true) {fc : Byte}
    (hw : (Instr.unsupported fc).wf s.cfg = true) :
    exec (.unsupported fc) s = .next (answered s (exceptionFrame s.cfg fc 0x01)) := by
  have e : exec (.unsupported fc) s = execUnsupported fc s := rfl
  rw [e, execUnsupported, guarded_of_wf hv hw, raiseException_eq_answered' hv]
  rfl

/-! ## The commands of ports D and RST -/

/-- What APPEND_OR_UPDATE does, in terms of the table operation (R101). -/
theorem execAppendOrUpdate_eq {s : State} (hv : s.cfg.valid = true) (identity : Ident) (typ : Byte) {data : List Byte}
    (hd : data.length = s.cfg.dataLen) :
    exec (.appendOrUpdate identity typ data) s =
      match tableAppendOrUpdate s.cfg s.table identity typ data with
      | .ok (t, r) => .next { s with table := t, outputs := s.outputs ++ [.appendResult r] }
      | .error f => .fault f := by
  have e : exec (.appendOrUpdate identity typ data) s = execAppendOrUpdate identity typ data s := rfl
  rw [e, execAppendOrUpdate, guarded_of_wf hv (by simp [Instr.wf, hd])]
  cases tableAppendOrUpdate s.cfg s.table identity typ data <;> rfl

theorem execClear_eq {s : State} (hv : s.cfg.valid = true) :
    exec .clear s = .next { s with table := tableClear s.table, outputs := s.outputs ++ [.nothing] } := by
  have e : exec .clear s = execClear s := rfl
  rw [e, execClear, guarded_of_wf hv rfl]
  rfl

theorem execReset_eq {s : State} (hv : s.cfg.valid = true) :
    exec .reset s = .next { s with
      table := DeviceTable.empty s.cfg, phase := .ready, outputs := s.outputs ++ [.nothing] } := by
  have e : exec .reset s = execReset s := rfl
  rw [e, execReset, guarded_of_wf hv rfl]
  rfl

/-! ## What every instruction has in common -/

/-- An instruction that runs was well formed under a configuration with a meaning (R6, R107). -/
theorem exec_next_guard {i : Instr} {s t : State} (h : exec i s = .next t) :
    s.cfg.valid = true ∧ i.wf s.cfg = true := by
  cases i <;> exact ⟨(guarded_eq_next h).1, (guarded_eq_next h).2.1⟩

/-- A request that completes answers one response, changes the table by a WRITE's commit at most, and nothing else
(R180). -/
theorem exec_request_next {i : Instr} {s t : State} (hreq : (encodeBody s.cfg i).isSome = true)
    (h : exec i s = .next t) :
    ∃ fc r table, t = answered { s with table := table } (build s.cfg fc r) ∧
      (table = s.table ∨
        ∃ start qty n values, i = .write start qty n values ∧
          table = commit s.cfg s.table ((addresses start.toNat qty.toNat).map (decodeAddr s.cfg)) values ∧
          fc = 0x10 ∧ r = .writeOk (highByte start) (lowByte start) (highByte qty) (lowByte qty)) ∧
      match i with
      | .read _ _ => fc = 0x03 ∧ (r = .exception .badLength ∨ r = .exception .badAddress ∨ ∃ q p, r = .readOk q p)
      | .write _ _ _ _ => fc = 0x10 ∧ ((∃ c, r = .exception c) ∨ ∃ a b c d, r = .writeOk a b c d)
      | .identify _ _ _ => fc = 0x2B ∧ ∃ m a cl mf no n objs, r = .idOk m a cl mf no n objs
      | .unsupported f => fc = f ∧ r = .exception .unsupportedFunction
      | .appendOrUpdate _ _ _ => False
      | .clear => False
      | .reset => False := by
  obtain ⟨hv, hw⟩ := exec_next_guard h
  cases i with
  | read start qty =>
    obtain ⟨-, e⟩ | ⟨-, -, -, e⟩ | ⟨-, -, -, ⟨regs, -, e⟩ | ⟨f, -, e⟩⟩ := execRead_cases hv start qty <;>
      rw [e] at h <;> cases h
    · exact ⟨0x03, .exception .badLength, s.table, by rw [build_exception hv]; rfl, .inl rfl, rfl, .inl rfl⟩
    · exact ⟨0x03, .exception .badAddress, s.table, by rw [build_exception hv]; rfl, .inl rfl, rfl, .inr (.inl rfl)⟩
    · exact ⟨0x03, _, s.table, rfl, .inl rfl, rfl, .inr (.inr ⟨_, _, rfl⟩)⟩
  | write start qty n values =>
    obtain ⟨-, e⟩ | ⟨-, -, -, e⟩ | ⟨-, -, -, -, e⟩ | ⟨-, -, -, -, -, e⟩ | ⟨-, -, -, -, -, e⟩ :=
      execWrite_cases hv start qty n values hw <;> rw [e] at h <;> cases h
    · exact ⟨0x10, .exception .badLength, s.table, by rw [build_exception hv]; rfl, .inl rfl, rfl, .inl ⟨_, rfl⟩⟩
    · exact ⟨0x10, .exception .badAddress, s.table, by rw [build_exception hv]; rfl, .inl rfl, rfl, .inl ⟨_, rfl⟩⟩
    · exact ⟨0x10, .exception .badAddress, s.table, by rw [build_exception hv]; rfl, .inl rfl, rfl, .inl ⟨_, rfl⟩⟩
    · exact ⟨0x10, .exception .other, s.table, by rw [build_exception hv]; rfl, .inl rfl, rfl, .inl ⟨_, rfl⟩⟩
    · exact ⟨0x10, .writeOk (highByte start) (lowByte start) (highByte qty) (lowByte qty), _,
        by rw [build_writeOk hv], .inr ⟨start, qty, n, values, rfl, rfl, rfl, rfl⟩, rfl, .inr ⟨_, _, _, _, rfl⟩⟩
  | identify m a o =>
    rw [execIdentify_eq hv] at h
    cases h
    exact ⟨0x2B, _, s.table, rfl, .inl rfl, rfl, _, _, _, _, _, _, _, rfl⟩
  | unsupported fc =>
    rw [execUnsupported_eq hv hw] at h
    cases h
    exact ⟨fc, .exception .unsupportedFunction, s.table, by rw [build_exception hv]; rfl, .inl rfl, rfl, rfl⟩
  | appendOrUpdate identity typ data => simp [encodeBody] at hreq
  | clear => simp [encodeBody] at hreq
  | reset => simp [encodeBody] at hreq

/-- The answer of a request depends on the configuration and the table alone: in every state with the same two, it hands
over the same response and leaves the same table, or faults alike (R160, R180). -/
theorem exec_request_uniform {i : Instr} {cfg : Config} (table : DeviceTable) (hv : cfg.valid = true)
    (hw : i.wf cfg = true) (hreq : (encodeBody cfg i).isSome = true) :
    (∃ bytes u, ∀ s : State, s.cfg = cfg → s.table = table →
      exec i s = .next (answered { s with table := u } bytes)) ∨
    ∃ f, ∀ s : State, s.cfg = cfg → s.table = table → exec i s = .fault f := by
  cases i with
  | read start qty =>
    cases hm : mapRead cfg table start.toNat qty.toNat with
    | ok regs =>
      exact .inl ⟨build cfg 0x03 (.readOk qty.toNat (split16s regs)), table, fun s hc ht => by
        subst hc ht; rw [execRead_eq hv, hm]⟩
    | error e =>
      exact .inl ⟨exceptionFrame cfg 0x03 (codeByte (errorCode e)), table, fun s hc ht => by
        subst hc ht; rw [execRead_eq hv, hm]⟩
    | fault f => exact .inr ⟨f, fun s hc ht => by subst hc ht; rw [execRead_eq hv, hm]⟩
  | write start qty n values =>
    cases hm : mapWrite cfg table start.toNat qty.toNat values with
    | ok fields =>
      exact .inl ⟨frameOut cfg ([cfg.slaveAddr, 0x10] ++ split16 start ++ split16 qty), commit cfg table fields values,
        fun s hc ht => by subst hc ht; rw [execWrite_eq hv start qty n values hw, hm]⟩
    | error e =>
      exact .inl ⟨exceptionFrame cfg 0x10 (codeByte (errorCode e)), table, fun s hc ht => by
        subst hc ht; rw [execWrite_eq hv start qty n values hw, hm]⟩
    | fault f => exact .inr ⟨f, fun s hc ht => by subst hc ht; rw [execWrite_eq hv start qty n values hw, hm]⟩
  | identify m a o =>
    exact .inl ⟨build cfg 0x2B (.idOk m a cfg.conformityLevel 0x00 0x00 (BitVec.ofNat 8 objectsNumber) (idObjects cfg)),
      table, fun s hc ht => by subst hc ht; exact execIdentify_eq hv m a o⟩
  | unsupported fc =>
    exact .inl ⟨exceptionFrame cfg fc 0x01, table, fun s hc ht => by subst hc ht; exact execUnsupported_eq hv hw⟩
  | appendOrUpdate identity typ data => simp [encodeBody] at hreq
  | clear => simp [encodeBody] at hreq
  | reset => simp [encodeBody] at hreq

/-- On a well-formed table every well-formed instruction completes (R24, R105: no fault is reached through the rules). -/
theorem exec_of_wf_table {i : Instr} {s : State} (hv : s.cfg.valid = true) (ht : s.table.Wf s.cfg)
    (hi : i.wf s.cfg = true) : ∃ t, exec i s = .next t := by
  cases i with
  | read start qty =>
    obtain ⟨-, e⟩ | ⟨-, -, -, e⟩ | ⟨-, -, h3, ⟨_, -, e⟩ | ⟨f, hr, -⟩⟩ := execRead_cases hv start qty
    · exact ⟨_, e⟩
    · exact ⟨_, e⟩
    · exact ⟨_, e⟩
    · obtain ⟨vs, e⟩ := regsRead_ok_of_le_top ht qty.toNat start.toNat (.inr h3)
      rw [e] at hr; cases hr
  | write start qty n values =>
    obtain ⟨-, e⟩ | ⟨-, -, -, e⟩ | ⟨-, -, -, -, e⟩ | ⟨-, -, -, -, -, e⟩ | ⟨-, -, -, -, -, e⟩ :=
      execWrite_cases hv start qty n values hi <;> exact ⟨_, e⟩
  | identify m a o => exact ⟨_, execIdentify_eq hv m a o⟩
  | unsupported fc => exact ⟨_, execUnsupported_eq hv hi⟩
  | appendOrUpdate identity typ data =>
    have hd : data.length = s.cfg.dataLen := by simpa [Instr.wf] using hi
    obtain ⟨u, r, e, -⟩ := ht.after_appendOrUpdate identity typ hd
    exact ⟨_, by rw [execAppendOrUpdate_eq hv identity typ hd, e]⟩
  | clear => exact ⟨_, execClear_eq hv⟩
  | reset => exact ⟨_, execReset_eq hv⟩

end Sys2Proof.Machine
end

