-- ==== Sys2Proof/Laws/PerInstr.lean ====
section
/-! SUPPORT. Statements made once per instruction: the length of an instruction's frame on the port (30_encoding.md R72). -/

namespace Sys2Proof.Laws.EncodedLength
open Sys2Proof.Machine

/-- The length of a request's body as the notation of R86 writes it; a command of port D or RST has no bytes on the port. -/
def bodyLength : Instr → Option Nat
  | .read _ _ => some 8
  | .write _ _ byteCount _ => some (7 + byteCount.toNat)
  | .identify _ _ _ => some 8
  | .unsupported _ => some 2
  | .appendOrUpdate _ _ _ => none
  | .clear => none
  | .reset => none

/-- The frame of a well-formed instruction is its body and, where `CRC_MODE` asks for one, two bytes of CRC (R72). -/
def Statement (i : Instr) : Prop :=
  ∀ cfg : Config, i.wf cfg = true →
    (encode cfg i).map List.length = (bodyLength i).map (· + crcLength cfg)

theorem read (start qty : U16) : Statement (.read start qty) := by
  intro cfg _
  simp [encode, encodeBody, bodyLength, frameOut_length]

theorem write (start qty : U16) (byteCount : Byte) (values : List U16) : Statement (.write start qty byteCount values) := by
  intro cfg h
  obtain ⟨hn, hl⟩ : byteCount.toNat = 2 * qty.toNat ∧ values.length = qty.toNat := by simpa [Instr.wf] using h
  simp only [encode, encodeBody, bodyLength, frameOut_length, Option.map_some, List.length_append, split16_length,
    split16s_length, List.length_cons, List.length_nil]
  congr 1
  omega

theorem identify (meiType accessType objectId : Byte) : Statement (.identify meiType accessType objectId) := by
  intro cfg _
  simp [encode, encodeBody, bodyLength, frameOut_length]

theorem unsupported (fc : Byte) : Statement (.unsupported fc) := by
  intro cfg _
  simp [encode, encodeBody, bodyLength, frameOut_length]

theorem appendOrUpdate (identity : Ident) (typ : Byte) (data : List Byte) : Statement (.appendOrUpdate identity typ data) :=
  fun _ _ => rfl

theorem clear : Statement .clear := fun _ _ => rfl

theorem reset : Statement .reset := fun _ _ => rfl

end Sys2Proof.Laws.EncodedLength
end

