-- ==== Sys2Proof/Laws/Transaction.lean ====
section
/-! SUPPORT. What one event and one step can do (43_dispatcher.md R180; 70_reset_and_hazards.md R280): one lemma per
transaction that lists every outcome. -/

namespace Sys2Proof.Machine

/-! ## A request and its function byte -/

/-- A request the function stages hand on is well formed and has a byte encoding (R155 to R159). -/
theorem decodeFunction_request_wf (cfg : Config) {fc : Byte} {ops : List Byte} {i : Instr}
    (h : decodeFunction fc ops = .request i) : i.wf cfg = true ∧ (encodeBody cfg i).isSome = true := by
  obtain ⟨-, ⟨e, -⟩ | ⟨j, hj, e⟩⟩ | ⟨-, ⟨e, -⟩ | ⟨j, hj, e⟩⟩ | ⟨-, ⟨e, -⟩ | ⟨j, hj, e⟩⟩ | ⟨h1, h2, h3, e⟩ :=
    decodeFunction_cases fc ops <;> rw [e] at h <;> cases h
  · obtain ⟨_, _, _, _, _, _, -, rfl⟩ := (decodeRead_eq_some_iff _ _).mp hj
    exact ⟨rfl, rfl⟩
  · obtain ⟨_, _, _, _, _, data, -, hl, hn, rfl⟩ := (decodeWrite_eq_some_iff _ _).mp hj
    refine ⟨?_, rfl⟩
    have := be16s_length _ data (by rw [hl, hn])
    simp [Instr.wf, this, hn]
  · obtain ⟨_, _, _, _, _, _, -, rfl⟩ := (decodeIdentify_eq_some_iff _ _).mp hj
    exact ⟨rfl, rfl⟩
  · refine ⟨?_, rfl⟩
    simp only [Instr.wf, supportedFunction, Bool.not_eq_true', Bool.or_eq_false_iff, beq_eq_false_iff_ne]
    exact ⟨⟨h1, h2⟩, h3⟩

/-- A request that completes answers under its own function byte: byte 1 of the response body, before the capacity check, is
the function byte or that byte with bit 7 set (R79). -/
theorem exec_decoded_next {s t : State} {fc : Byte} {ops : List Byte} {i : Instr}
    (hd : decodeFunction fc ops = .request i) (h : exec i s = .next t) :
    ∃ r table, t = answered { s with table := table } (build s.cfg fc r) ∧
      ((replyBody s.cfg fc r)[1]? = some (fc ||| 0x80) ∨ (replyBody s.cfg fc r)[1]? = some fc) ∧
      (table = s.table ∨
        fc = 0x10 ∧ ∃ start qty n values, i = .write start qty n values ∧
          table = commit s.cfg s.table ((addresses start.toNat qty.toNat).map (decodeAddr s.cfg)) values ∧
          r = .writeOk (highByte start) (lowByte start) (highByte qty) (lowByte qty)) := by
  obtain ⟨fc', r, table, rfl, ht, hm⟩ := exec_request_next (decodeFunction_request_wf s.cfg hd).2 h
  have hfc : fc' = fc ∧ ((replyBody s.cfg fc r)[1]? = some (fc ||| 0x80) ∨ (replyBody s.cfg fc r)[1]? = some fc) := by
    obtain ⟨h3, ⟨e, -⟩ | ⟨_, h2, e⟩⟩ | ⟨h3, ⟨e, -⟩ | ⟨_, h2, e⟩⟩ | ⟨h3, ⟨e, -⟩ | ⟨_, h2, e⟩⟩ | ⟨-, -, -, e⟩ :=
      decodeFunction_cases fc ops <;> rw [e] at hd <;> cases hd
    · obtain ⟨_, _, _, _, _, _, -, rfl⟩ := (decodeRead_eq_some_iff _ _).mp h2
      obtain ⟨hf, rfl | rfl | ⟨_, _, rfl⟩⟩ := hm
      · exact ⟨by rw [h3, hf], .inl rfl⟩
      · exact ⟨by rw [h3, hf], .inl rfl⟩
      · exact ⟨by rw [h3, hf], .inr (by rw [h3]; rfl)⟩
    · obtain ⟨_, _, _, _, _, _, -, -, -, rfl⟩ := (decodeWrite_eq_some_iff _ _).mp h2
      obtain ⟨hf, ⟨_, rfl⟩ | ⟨_, _, _, _, rfl⟩⟩ := hm
      · exact ⟨by rw [h3, hf], .inl rfl⟩
      · exact ⟨by rw [h3, hf], .inr (by rw [h3]; rfl)⟩
    · obtain ⟨_, _, _, _, _, _, -, rfl⟩ := (decodeIdentify_eq_some_iff _ _).mp h2
      obtain ⟨hf, _, _, _, _, _, _, _, rfl⟩ := hm
      exact ⟨by rw [h3, hf], .inr (by rw [h3]; rfl)⟩
    · obtain ⟨hf, rfl⟩ := hm
      exact ⟨hf, .inl rfl⟩
  obtain ⟨rfl, hb⟩ := hfc
  refine ⟨r, table, rfl, hb, ?_⟩
  obtain e | ⟨start, qty, n, values, e1, e2, e3, e4⟩ := ht
  · exact .inl e
  · exact .inr ⟨e3, start, qty, n, values, e1, e2, e4⟩

/-! ## One event -/

/-- Everything a frame's transaction can do (R180): discard, answer exception 0x03 for its shape, or run its request. -/
theorem runFrame_cases {s : State} (hv : s.cfg.valid = true) (frame : List Byte) :
    (∃ why, decodeFrame s.cfg frame = .discard why ∧
      runFrame frame s = .next { s with phase := .ready, outputs := s.outputs ++ [.nothing] }) ∨
    (∃ fc, decodeFrame s.cfg frame = .badShape fc ∧
      runFrame frame s = .next (answered s (exceptionFrame s.cfg fc 0x03))) ∨
    (∃ i, decodeFrame s.cfg frame = .request i ∧ runFrame frame s = exec i { s with phase := .validating }) := by
  unfold runFrame
  simp only [setPhase_cfg]
  cases h : decodeFrame s.cfg frame with
  | discard why => exact .inl ⟨why, rfl, rfl⟩
  | badShape fc => exact .inr (.inl ⟨fc, rfl, by simp only [raiseException_eq_answered hv, codeByte]⟩)
  | request i => exact .inr (.inr ⟨i, rfl, rfl⟩)

/-- The answer of a frame depends on the configuration and the table alone (R160, R180): in every state with the same two, it
has the same output and leaves the same table, or faults alike. -/
theorem runFrame_uniform {cfg : Config} (table : DeviceTable) (hv : cfg.valid = true) (frame : List Byte) :
    (∃ o u, ∀ s : State, s.cfg = cfg → s.table = table →
      runFrame frame s = .next { s with table := u, phase := .ready, outputs := s.outputs ++ [o] }) ∨
    ∃ f, ∀ s : State, s.cfg = cfg → s.table = table → runFrame frame s = .fault f := by
  cases h : decodeFrame cfg frame with
  | discard why =>
    refine .inl ⟨.nothing, table, fun s hc ht => ?_⟩
    subst hc ht
    simp only [runFrame, setPhase_cfg, h]
    rfl
  | badShape fc =>
    refine .inl ⟨.response (exceptionFrame cfg fc 0x03), table, fun s hc ht => ?_⟩
    subst hc ht
    simp only [runFrame, setPhase_cfg, h, raiseException_eq_answered hv]
    rfl
  | request i =>
    obtain ⟨_, e, -⟩ | ⟨fc, ops, -, e⟩ := decodeFrame_cases cfg frame
    · rw [h] at e; cases e
    rw [h] at e
    obtain ⟨hw, hreq⟩ := decodeFunction_request_wf cfg e.symm
    obtain ⟨bytes, u, hall⟩ | ⟨f, hall⟩ := exec_request_uniform table hv hw hreq
    · refine .inl ⟨.response bytes, u, fun s hc ht => ?_⟩
      subst hc ht
      simp only [runFrame, setPhase_cfg, h]
      exact hall (setPhase .validating s) rfl rfl
    · refine .inr ⟨f, fun s hc ht => ?_⟩
      subst hc ht
      simp only [runFrame, setPhase_cfg, h]
      exact hall _ rfl rfl

/-- Everything a frame's transaction changes when it completes (R180, R25, R154, R255): the phase is `Ready`; the count, the
arena, identities and types are kept, and so is a well-formed table; and either the frame was not addressed and there is no
output, or it is answered under its function byte, and the table changed only under the echo of a WRITE. -/
theorem runFrame_next {s t : State} (hv : s.cfg.valid = true) {frame : List Byte} (h : runFrame frame s = .next t) :
    t.cfg = s.cfg ∧ t.pending = s.pending ∧ t.taken = s.taken ∧ t.phase = .ready ∧ t.table.count = s.table.count ∧
    t.table.slots.length = s.table.slots.length ∧
    (∀ k, identAt t.table k = identAt s.table k ∧ typAt t.table k = typAt s.table k) ∧
    (s.table.Wf s.cfg → t.table.Wf s.cfg) ∧
    ((t.table = s.table ∧ t.outputs = s.outputs ++ [.nothing] ∧
        ¬∃ fc ops, stripCrc s.cfg frame = some (s.cfg.slaveAddr :: fc :: ops)) ∨
      ∃ fc ops r, stripCrc s.cfg frame = some (s.cfg.slaveAddr :: fc :: ops) ∧
        t.outputs = s.outputs ++ [.response (build s.cfg fc r)] ∧
        ((replyBody s.cfg fc r)[1]? = some (fc ||| 0x80) ∨ (replyBody s.cfg fc r)[1]? = some fc) ∧
        (t.table = s.table ∨
          fc = 0x10 ∧ ∃ a b, r = .writeOk (highByte a) (lowByte a) (highByte b) (lowByte b))) := by
  obtain ⟨why, hd, e⟩ | ⟨fc, hd, e⟩ | ⟨i, hd, e⟩ := runFrame_cases hv frame
  · rw [e] at h; cases h
    refine ⟨rfl, rfl, rfl, rfl, rfl, rfl, fun _ => ⟨rfl, rfl⟩, id, .inl ⟨rfl, rfl, ?_⟩⟩
    obtain ⟨_, _, hn⟩ | ⟨fc, ops, hs, e2⟩ := decodeFrame_cases s.cfg frame
    · exact hn
    · rw [hd] at e2; exact absurd e2.symm (decodeFunction_ne_discard _ _ _)
  · rw [e] at h; cases h
    refine ⟨rfl, rfl, rfl, rfl, rfl, rfl, fun _ => ⟨rfl, rfl⟩, id, .inr ?_⟩
    obtain ⟨_, e2, -⟩ | ⟨fc', ops, hs, e2⟩ := decodeFrame_cases s.cfg frame
    · rw [hd] at e2; cases e2
    · have hfc : fc = fc' := by
        rw [hd] at e2
        obtain ⟨-, ⟨h, -⟩ | ⟨_, -, h⟩⟩ | ⟨-, ⟨h, -⟩ | ⟨_, -, h⟩⟩ | ⟨-, ⟨h, -⟩ | ⟨_, -, h⟩⟩ | ⟨-, -, -, h⟩ :=
          decodeFunction_cases fc' ops <;> rw [h] at e2 <;> cases e2 <;> rfl
      subst hfc
      exact ⟨fc, ops, .exception .badLength, hs, by rw [build_exception hv]; rfl, .inl rfl, .inl rfl⟩
  · rw [e] at h
    obtain ⟨_, e2, -⟩ | ⟨fc, ops, hs, e2⟩ := decodeFrame_cases s.cfg frame
    · rw [hd] at e2; cases e2
    rw [hd] at e2
    obtain ⟨r, table, rfl, hb, rfl | ⟨rfl, start, qty, n, vs, -, rfl, rfl⟩⟩ := exec_decoded_next e2.symm h
    · exact ⟨rfl, rfl, rfl, rfl, rfl, rfl, fun _ => ⟨rfl, rfl⟩, id, .inr ⟨fc, ops, r, hs, rfl, hb, .inl rfl⟩⟩
    · exact ⟨rfl, rfl, rfl, rfl, by simp, by simp, by simp, fun hw => hw.after_commit _ vs,
        .inr ⟨_, ops, _, hs, rfl, hb, .inr ⟨rfl, _, _, rfl⟩⟩⟩

/-- What every delivery leaves alone when it completes, and its one output (R9, R23, R37). -/
theorem runDelivery_next {s t : State} (hv : s.cfg.valid = true) {d : Delivery} (h : runDelivery d s = .next t) :
    t.cfg = s.cfg ∧ t.pending = s.pending ∧ t.taken = s.taken ∧ (t.phase = s.phase ∨ t.phase = .ready) ∧
    (s.table.Wf s.cfg → t.table.Wf s.cfg) ∧ ∃ o, t.outputs = s.outputs ++ [o] ∧ outputFits s.cfg o = true := by
  cases d with
  | frame f =>
    obtain ⟨h1, h2, h3, h4, -, -, -, h8, ⟨-, h9, -⟩ | ⟨fc, _, r, -, h9, -⟩⟩ := runFrame_next hv h
    · exact ⟨h1, h2, h3, .inr h4, h8, _, h9, rfl⟩
    · exact ⟨h1, h2, h3, .inr h4, h8, _, h9, by simpa [outputFits] using build_length_le hv fc r⟩
  | appendOrUpdate identity typ data =>
    have h' : exec (.appendOrUpdate identity typ data) s = .next t := h
    have hd : data.length = s.cfg.dataLen := by simpa [Instr.wf] using (exec_next_guard h').2
    rw [execAppendOrUpdate_eq hv identity typ hd] at h'
    split at h'
    · rename_i u r hu
      cases h'
      refine ⟨rfl, rfl, rfl, .inl rfl, fun hw => ?_, _, rfl, rfl⟩
      obtain ⟨u', r', e, hw'⟩ := hw.after_appendOrUpdate identity typ hd
      rw [hu] at e; cases e; exact hw'
    · cases h'
  | clear =>
    have h' : exec .clear s = .next t := h
    rw [execClear_eq hv] at h'
    cases h'
    refine ⟨rfl, rfl, rfl, .inl rfl, fun hw => ?_, _, rfl, rfl⟩
    show (tableClear s.table).Wf s.cfg
    rw [tableClear_eq_empty hw.1]; exact DeviceTable.Wf.of_empty _

/-- What every event leaves alone when it completes, and its one output (R9, R23, R37, R280). -/
theorem runEvent_next {s t : State} (hv : s.cfg.valid = true) {e : Event} (h : runEvent e s = .next t) :
    t.cfg = s.cfg ∧ t.pending = s.pending ∧ t.taken = s.taken ∧ (t.phase = s.phase ∨ t.phase = .ready) ∧
    (s.table.Wf s.cfg → t.table.Wf s.cfg) ∧ ∃ o, t.outputs = s.outputs ++ [o] ∧ outputFits s.cfg o = true := by
  cases e with
  | delivered d => exact runDelivery_next hv h
  | reset =>
    have h' : exec .reset s = .next t := h
    rw [execReset_eq hv] at h'
    cases h'
    exact ⟨rfl, rfl, rfl, .inr rfl, fun _ => DeviceTable.Wf.of_empty _, _, rfl, rfl⟩
  | cutByReset d b =>
    have h' : cutByReset d b s = .next t := h
    unfold cutByReset at h'
    split at h'
    · rename_i u hu
      obtain ⟨h1, h2, h3, -, -, o, h4, h5⟩ := runDelivery_next hv hu
      cases h'
      refine ⟨h1, h2, h3, .inr rfl, fun _ => ?_, ?_⟩
      · show (DeviceTable.empty u.cfg).Wf s.cfg
        rw [h1]; exact DeviceTable.Wf.of_empty _
      · cases b
        · exact ⟨.nothing, rfl, rfl⟩
        · exact ⟨o, h4, h5⟩
    · cases h'
    · cases h'

/-- On a well-formed table every well-formed delivery completes. -/
theorem runDelivery_of_wf_table {d : Delivery} {s : State} (hv : s.cfg.valid = true) (ht : s.table.Wf s.cfg)
    (hd : d.wf s.cfg = true) : ∃ t, runDelivery d s = .next t := by
  cases d with
  | frame f =>
    obtain ⟨_, _, e⟩ | ⟨_, _, e⟩ | ⟨i, h, e⟩ := runFrame_cases hv f
    · exact ⟨_, e⟩
    · exact ⟨_, e⟩
    · obtain ⟨_, e2, -⟩ | ⟨fc, ops, -, e2⟩ := decodeFrame_cases s.cfg f
      · rw [h] at e2; cases e2
      rw [h] at e2
      obtain ⟨t, he⟩ := exec_of_wf_table (s := { s with phase := .validating }) hv ht
        (decodeFunction_request_wf s.cfg e2.symm).1
      exact ⟨t, e.trans he⟩
  | appendOrUpdate identity typ data => exact exec_of_wf_table (i := .appendOrUpdate identity typ data) hv ht hd
  | clear => exact exec_of_wf_table (i := .clear) hv ht rfl

/-- On a well-formed table every well-formed event completes. -/
theorem runEvent_of_wf_table {e : Event} {s : State} (hv : s.cfg.valid = true) (ht : s.table.Wf s.cfg)
    (he : e.wf s.cfg = true) : ∃ t, runEvent e s = .next t := by
  cases e with
  | delivered d => exact runDelivery_of_wf_table hv ht he
  | reset => exact ⟨_, execReset_eq hv⟩
  | cutByReset d b =>
    obtain ⟨t, h⟩ := runDelivery_of_wf_table hv ht he
    exact ⟨_, by simp only [runEvent, cutByReset, h]; rfl⟩

/-! ## One step -/

/-- A step with an event pending is that event's transaction on the state that has taken it (R9, R258). -/
theorem step_of_pending {s : State} {e : Event} {rest : List Event} (hv : s.cfg.valid = true)
    (hp : s.pending = e :: rest) : step s = runEvent e (afterTaking s e rest) := by
  simp [step, runNext, hv, hp, takeEvent_eq_afterTaking]

theorem step_of_idle {s : State} (hv : s.cfg.valid = true) (hp : s.pending = []) : step s = .next s := by
  simp [step, runNext, hv, hp]

theorem step_of_invalid {s : State} (hv : s.cfg.valid = false) : step s = .refused .invalidConfiguration := by
  simp [step, runNext, hv]

/-- A step that answers a next state ran under a configuration with a meaning (R6). -/
theorem step_next_valid {s t : State} (h : step s = .next t) : s.cfg.valid = true := by
  cases hv : s.cfg.valid with
  | true => rfl
  | false => rw [step_of_invalid hv] at h; cases h

end Sys2Proof.Machine
end

