-- ==== Sys2Proof/Tests/Slice0.lean ====
section
/-! SUPPORT. The model's own tests: the checks of WellFormed, words written out from spec/30_encoding.md, vectors of
spec/95_test_vectors.md (expected bytes taken from that file), and a witness for every statement with hypotheses. -/

namespace Sys2Proof.Tests
open Machine

/-! ## Small states of the vectors -/

/-- Seven copies of a byte, `[b]*7`. -/
def seven (b : Byte) : List Byte := List.replicate 7 b

/-- The record of `ONE` (95_test_vectors.md). -/
def recA : Slot := ⟨0xA1, 0x05, [0x01, 0x02, 0x03, 0x04, 0x05, 0x06, 0x07]⟩

/-- The second record of `TWO`. -/
def recB : Slot := ⟨0xB2, 0x09, [0x0A, 0x0B, 0x0C, 0x0D, 0x0E, 0x0F, 0x10]⟩

/-- The record of vector T1 for identity `i`. -/
def recT (i : Nat) : Slot := ⟨BitVec.ofNat 48 i, BitVec.ofNat 8 i, seven (BitVec.ofNat 8 i)⟩

/-- The block after reset with the records given in its low slots. -/
def holding (cfg : Config) (records : List Slot) : State :=
  { State.resetWith cfg with
    table := ⟨records.length, records.map some ++ List.replicate (cfg.maxDevices - records.length) none⟩ }

/-- State `E`. -/
def empty : State := holding Config.ex []

/-- State `ONE`. -/
def one : State := holding Config.ex [recA]

/-- State `TWO`. -/
def two : State := holding Config.ex [recA, recB]

/-- The end state of vector T1: a full table. -/
def full : State := holding Config.ex [recT 1, recT 2, recT 3, recT 4]

/-- `s` with the events given pending. -/
def offered (es : List Event) (s : State) : State := { s with pending := es }

/-- `s` with one frame pending. -/
def framed (bytes : List Byte) (s : State) : State := offered [.delivered (.frame bytes)] s

/-- The next state of a result, where it is one. -/
def nextOf : Result → Option State
  | .next t => some t
  | .fault _ => none
  | .refused _ => none

/-- The last output of a result. -/
def outputOf (r : Result) : Option Output := (nextOf r).bind fun t => t.outputs.getLast?

/-- The table of a result. -/
def tableOf (r : Result) : Option DeviceTable := (nextOf r).map State.table

/-- What one frame answers in `s`. -/
def answer (s : State) (bytes : List Byte) : Option Output := outputOf (step (framed bytes s))

/-- A decided property of the next state gives the next state itself. -/
theorem exists_next {r : Result} {p : State → Prop} [DecidablePred p]
    (h : (nextOf r).any (fun t => decide (p t)) = true) : ∃ t, r = .next t ∧ p t := by
  cases r with
  | next t => exact ⟨t, rfl, of_decide_eq_true h⟩
  | fault f => cases h
  | refused f => cases h

/-! ## WellFormed: every check refuses a term that breaks it -/

theorem test_valid_ex : Config.ex.valid = true ∧ Config.exRtu.valid = true := by decide

theorem test_invalid_configurations :
    { Config.ex with maxDevices := 8192 }.valid = false ∧
    { Config.ex with maxDevices := 65536, dataLen := 0 }.valid = false ∧
    { Config.ex with dataLen := 0 }.valid = false ∧
    { Config.ex with respBufLen := 7 }.valid = false ∧
    { Config.ex with maxDevices := 0 }.valid = false ∧
    { Config.ex with vendorName := List.replicate 256 0x41 }.valid = false ∧
    { Config.ex with productCode := List.replicate 256 0x41 }.valid = false ∧
    { Config.ex with revision := List.replicate 256 0x41 }.valid = false := by decide +kernel

theorem test_ill_formed_instructions :
    (Instr.write 2 1 3 [1]).wf Config.ex = false ∧
    (Instr.write 2 1 2 [1, 1]).wf Config.ex = false ∧
    (Instr.unsupported 0x03).wf Config.ex = false ∧
    (Instr.unsupported 0x10).wf Config.ex = false ∧
    (Instr.unsupported 0x2B).wf Config.ex = false ∧
    (Instr.appendOrUpdate 0xA1 0x05 [1, 2, 3, 4, 5, 6]).wf Config.ex = false := by decide

/-! ## Decoding: words written out from the layouts of R74 to R77 -/

/-- RQ_READ (R74): start in bytes 2 and 3, quantity in 4 and 5, high byte first; bytes 6 and 7 ignored. -/
theorem test_decode_read :
    decodeFrame Config.ex [0x11, 0x03, 0x12, 0x34, 0x00, 0x7B, 0xAB, 0xCD] = .request (.read 0x1234 0x007B) := by decide

/-- RQ_WRITE (R75): two registers. -/
theorem test_decode_write :
    decodeFrame Config.ex [0x11, 0x10, 0x01, 0x02, 0x00, 0x02, 0x04, 0x0A, 0x0B, 0x0C, 0x0D] =
      .request (.write 0x0102 0x0002 0x04 [0x0A0B, 0x0C0D]) := by decide

/-- RQ_ID (R76). -/
theorem test_decode_identify :
    decodeFrame Config.ex [0x11, 0x2B, 0x0E, 0x01, 0x02, 0xFF, 0xFF, 0xFF] = .request (.identify 0x0E 0x01 0x02) := by
  decide

/-- RQ_OTHER (R77): any other function byte, whatever follows. -/
theorem test_decode_unsupported :
    decodeFrame Config.ex [0x11, 0x00] = .request (.unsupported 0x00) ∧
    decodeFrame Config.ex [0x11, 0x83, 0x00, 0x00] = .request (.unsupported 0x83) := by decide

/-- The order of the validator's stages (R150, R256), and R157, R158. -/
theorem test_decode_rejections :
    decodeFrame Config.ex [] = .discard .tooShort ∧
    decodeFrame Config.ex [0x11] = .discard .tooShort ∧
    decodeFrame Config.ex [0x12, 0x03, 0x00, 0x00, 0x00, 0x01, 0x00, 0x00] = .discard .addressMismatch ∧
    decodeFrame Config.exRtu [0x11] = .discard .crcMismatch ∧
    decodeFrame Config.exRtu [0x11, 0x03, 0x00, 0x00, 0x00, 0x01, 0x00, 0x00, 0xE2, 0x0A] = .discard .crcMismatch ∧
    decodeFrame Config.ex [0x11, 0x03, 0x00, 0x00, 0x00, 0x01, 0x00] = .badShape 0x03 ∧
    decodeFrame Config.ex [0x11, 0x10, 0x00, 0x02, 0x00, 0x80, 0x00] = .badShape 0x10 := by decide +kernel

/-- The words of the opcode table, bit 0 being the lowest bit of body byte 1, the function code. -/
theorem test_decodeTableWord :
    decodeTableWord 8 0x03 = some (.read 0 0) ∧ decodeTableWord 8 0x10 = some (.write 0 0 0 []) ∧
    decodeTableWord 8 0x2B = some (.identify 0 0 0) ∧ decodeTableWord 8 0x00 = some (.unsupported 0x00) ∧
    decodeTableWord 40 0x0200010003 = some (.read 0x0001 0x0002) := by decide

/-- A table word placed by withFetchWord is the very next event of the step. -/
theorem test_withFetchWord :
    outputOf (step (State.reset.withFetchWord 8 0x2B)) = outputOf (exec (.identify 0 0 0) State.reset) ∧
    outputOf (step (State.reset.withFetchWord 8 0x99)) = some (.response [0x11, 0x99, 0x01, 0x00, 0x00]) := by decide

/-! ## Vectors, at most two for an instruction -/

/-- RD3. -/
theorem test_read_device : answer one [0x11, 0x03, 0x00, 0x01, 0x00, 0x08, 0x00, 0x00] =
    some (.response [0x11, 0x03, 0x10, 0x00, 0x00, 0x05, 0x00, 0x01, 0x00, 0x02, 0x00, 0x03, 0x00, 0x04, 0x00, 0x05,
      0x00, 0x06, 0x00, 0x07]) := by decide +kernel

/-- RD12: no wrap-around to register 0. -/
theorem test_read_no_wrap : answer one [0x11, 0x03, 0xFF, 0xFF, 0x00, 0x02, 0x00, 0x00] =
    some (.response [0x11, 0x83, 0x02, 0x00, 0x00]) := by decide +kernel

/-- W1: the echo and the bytes stored. -/
theorem test_write_two_registers :
    answer one [0x11, 0x10, 0x00, 0x02, 0x00, 0x02, 0x04, 0x00, 0x0A, 0x00, 0x0B] =
      some (.response [0x11, 0x10, 0x00, 0x02, 0x00, 0x02]) ∧
    (tableOf (step (framed [0x11, 0x10, 0x00, 0x02, 0x00, 0x02, 0x04, 0x00, 0x0A, 0x00, 0x0B] one))).map
        (fun t => slotAt t 0) =
      some (some ⟨0xA1, 0x05, [0x0A, 0x0B, 0x03, 0x04, 0x05, 0x06, 0x07]⟩) := by decide +kernel

/-- W5: a write into the next device's type register answers 0x02 and writes nothing. -/
theorem test_write_across_devices :
    answer two [0x11, 0x10, 0x00, 0x08, 0x00, 0x02, 0x04, 0x00, 0x01, 0x00, 0x02] =
      some (.response [0x11, 0x90, 0x02, 0x00, 0x00]) ∧
    tableOf (step (framed [0x11, 0x10, 0x00, 0x08, 0x00, 0x02, 0x04, 0x00, 0x01, 0x00, 0x02] two)) =
      some two.table := by decide +kernel

/-- ID2. -/
theorem test_identify_echoes : answer empty [0x11, 0x2B, 0xAA, 0x55, 0x07, 0x00, 0x00, 0x00] =
    some (.response [0x11, 0x2B, 0xAA, 0x55, 0x01, 0x00, 0x00, 0x03, 0x00, 0x03, 0x56, 0x4E, 0x44, 0x01, 0x02, 0x50,
      0x31, 0x02, 0x03, 0x31, 0x2E, 0x30]) := by decide +kernel

/-- ID3: a 22-byte response does not fit 21. -/
theorem test_identify_too_long :
    answer (holding { Config.ex with respBufLen := 21 } []) [0x11, 0x2B, 0x0E, 0x01, 0x00, 0x00, 0x00, 0x00] =
      some (.response [0x11, 0xAB, 0x04, 0x00, 0x00]) := by decide +kernel

/-- V7. -/
theorem test_unsupported : answer one [0x11, 0x99] = some (.response [0x11, 0x99, 0x01, 0x00, 0x00]) := by decide +kernel

/-- CR3: the same with CRC framing. -/
theorem test_unsupported_rtu : answer (holding Config.exRtu []) [0x11, 0x99, 0xCD, 0x8A] =
    some (.response [0x11, 0x99, 0x01, 0x00, 0x00, 0xA7, 0x5F]) := by decide +kernel

/-- T5: a full table still updates an identity it holds. -/
theorem test_update_in_full_table :
    outputOf (exec (.appendOrUpdate 4 0x50 (seven 0x00)) full) = some (.appendResult .updated) ∧
    (tableOf (exec (.appendOrUpdate 4 0x50 (seven 0x00)) full)).map (fun t => slotAt t 3) =
      some (some ⟨4, 0x50, seven 0x00⟩) := by decide +kernel

/-- The last command of T1. -/
theorem test_append_ignored :
    outputOf (exec (.appendOrUpdate 5 0x05 (seven 0x05)) full) = some (.appendResult .ignored) ∧
    tableOf (exec (.appendOrUpdate 5 0x05 (seven 0x05)) full) = some full.table := by decide +kernel

/-- The first step of P3's CLEAR: the count is 0 and no slot holds a value. -/
theorem test_clear : tableOf (exec .clear two) = some empty.table ∧ outputOf (exec .clear two) = some .nothing := by
  decide +kernel

/-- RESET leaves state `E` (95_test_vectors.md) and emits nothing. -/
theorem test_reset : tableOf (exec .reset full) = some empty.table ∧ outputOf (exec .reset full) = some .nothing := by
  decide +kernel

/-- V1: a frame for another slave is discarded. -/
theorem test_discard : answer one [0x12, 0x03, 0x00, 0x00, 0x00, 0x01, 0x00, 0x00] = some .nothing := by decide +kernel

/-- V13: one data byte where the byte count says two. -/
theorem test_bad_shape : answer one [0x11, 0x10, 0x00, 0x02, 0x00, 0x01, 0x02, 0x00] =
    some (.response [0x11, 0x90, 0x03, 0x00, 0x00]) := by decide +kernel

/-! ## Witnesses: for every statement with hypotheses, a concrete state and operands that meet all of them together; for a
statement of several clauses, one for each clause at a boundary value -/

/-- The frame of `READ start=1 qty=8` (RD3). -/
def readFrame : List Byte := [0x11, 0x03, 0x00, 0x01, 0x00, 0x08, 0x00, 0x00]

/-- The frame of W1. -/
def writeFrame : List Byte := [0x11, 0x10, 0x00, 0x02, 0x00, 0x02, 0x04, 0x00, 0x0A, 0x00, 0x0B]

/-- The frame of V1, for another slave. -/
def strangerFrame : List Byte := [0x12, 0x03, 0x00, 0x00, 0x00, 0x01, 0x00, 0x00]

/-- Equal values without a high byte. -/
theorem highByte_of_mem_replicate {n : Nat} {v : U16} (h : highByte v = 0) : ∀ w ∈ List.replicate n v, highByte w = 0 :=
  fun _ hw => List.eq_of_mem_replicate hw ▸ h

/-- A small configuration whose table can be full or hold one device, with the shortest buffer R6 admits. -/
def small : Config := { Config.ex with dataLen := 2, maxDevices := 2, respBufLen := 8 }

/-- A device of `small`. -/
def recS (i : Nat) : Slot := ⟨BitVec.ofNat 48 i, 0x41, [0x01, 0x02]⟩

theorem witness_DecodeOfEncodeIsIdentity :
    (Instr.read 0xFFFF 0xFFFF).wf Config.exRtu = true ∧ (encode Config.exRtu (.read 0xFFFF 0xFFFF)).isSome = true ∧
    (Instr.write 0 0 0 []).wf Config.ex = true ∧ (encode Config.ex (.write 0 0 0 [])).isSome = true ∧
    (Instr.write 2 127 254 (List.replicate 127 0xFFFF)).wf Config.ex = true ∧
    (encode Config.ex (.write 2 127 254 (List.replicate 127 0xFFFF))).isSome = true ∧
    (Instr.identify 1 2 3).wf Config.ex = true ∧ (encode Config.ex (.identify 1 2 3)).isSome = true ∧
    (Instr.unsupported 0xFF).wf Config.ex = true ∧ (encode Config.ex (.unsupported 0xFF)).isSome = true := by
  decide +kernel

theorem witness_DecodedRequestsAreWellFormed :
    decodeFrame Config.ex writeFrame = .request (.write 2 2 4 [0x000A, 0x000B]) := by decide +kernel

theorem witness_WriteOperandsAreBigEndian :
    stripCrc Config.ex writeFrame =
      some ([Config.ex.slaveAddr, 0x10, 0x00, 0x02, 0x00, 0x02, 0x04] ++ [0x00, 0x0A, 0x00, 0x0B]) ∧
    [0x00, 0x0A, 0x00, 0x0B].length = (0x04 : Byte).toNat ∧
    (0x04 : Byte).toNat = 2 * ((0x00 : Byte).toNat * 256 + (0x02 : Byte).toNat) := by decide +kernel

theorem witness_DiscardedExactlyWhenUnaddressed :
    stripCrc Config.exRtu [0x11] = none ∧ stripCrc Config.ex [] = some [] ∧ stripCrc Config.ex [0x11] = some [0x11] ∧
    stripCrc Config.ex strangerFrame = some strangerFrame ∧ strangerFrame.head? ≠ some Config.ex.slaveAddr := by
  decide +kernel

theorem witness_StepRunsTheDecodedRequest :
    (framed readFrame one).cfg.valid = true ∧ (framed readFrame one).pending = .delivered (.frame readFrame) :: [] ∧
    decodeFrame (framed readFrame one).cfg readFrame = .request (.read 1 8) := by decide +kernel

theorem witness_StepRunsPortCommands :
    one.cfg.valid = true ∧ one.pending = [] ∧
    (offered [.delivered (.appendOrUpdate 0xB2 0x09 recB.data)] one).pending =
      .delivered (.appendOrUpdate 0xB2 0x09 recB.data) :: [] ∧
    (offered [.delivered .clear] one).pending = .delivered .clear :: [] ∧
    (offered [.reset] one).pending = .reset :: [] := by decide +kernel

theorem witness_DiscardChangesNothing :
    (framed strangerFrame one).cfg.valid = true ∧
    (framed strangerFrame one).pending = .delivered (.frame strangerFrame) :: [] ∧
    decodeFrame (framed strangerFrame one).cfg strangerFrame = .discard .addressMismatch := by decide +kernel

/-- Seven and nine bytes, the lengths beside eight (V9, V10, V11), and eight. -/
theorem witness_FixedShapeBodiesMustBeEightBytes :
    (∀ frame, (framed frame one).cfg.valid = true ∧ (framed frame one).pending = .delivered (.frame frame) :: []) ∧
    stripCrc one.cfg [0x11, 0x03, 0, 0, 0, 1, 0] = some (one.cfg.slaveAddr :: 0x03 :: [0, 0, 0, 1, 0]) ∧
    2 + [0, 0, 0, 1, (0 : Byte)].length ≠ 8 ∧
    stripCrc one.cfg [0x11, 0x03, 0, 0, 0, 1, 0, 0, 0] = some (one.cfg.slaveAddr :: 0x03 :: [0, 0, 0, 1, 0, 0, 0]) ∧
    2 + [0, 0, 0, 1, 0, 0, (0 : Byte)].length ≠ 8 ∧
    stripCrc one.cfg [0x11, 0x2B, 0x0E, 0x01, 0, 0, 0] = some (one.cfg.slaveAddr :: 0x2B :: [0x0E, 0x01, 0, 0, 0]) ∧
    2 + [0x0E, 0x01, 0, 0, (0 : Byte)].length ≠ 8 ∧
    stripCrc one.cfg readFrame = some (one.cfg.slaveAddr :: 0x03 :: [0, 1, 0, 8, 0, 0]) ∧
    2 + [0, 1, 0, 8, 0, (0 : Byte)].length = 8 :=
  ⟨fun _ => ⟨rfl, rfl⟩, by decide +kernel⟩

/-- Too short for a byte count (V12). -/
theorem witness_WriteBodyLengthsMustAgree_short :
    (framed [0x11, 0x10, 0, 2, 0, 1] one).cfg.valid = true ∧
    (framed [0x11, 0x10, 0, 2, 0, 1] one).pending = .delivered (.frame [0x11, 0x10, 0, 2, 0, 1]) :: [] ∧
    stripCrc one.cfg [0x11, 0x10, 0, 2, 0, 1] = some ([one.cfg.slaveAddr, 0x10] ++ [0, 2, 0, 1]) ∧
    ∀ (s1 s0 q1 q0 n : Byte) (data : List Byte), [0, 2, 0, 1] = [s1, s0, q1, q0, n] ++ data →
      data.length ≠ n.toNat ∨ n.toNat ≠ 2 * (q1.toNat * 256 + q0.toNat) :=
  ⟨rfl, rfl, by decide +kernel, fun _ _ _ _ _ _ h => by simp at h⟩

/-- One data byte under a byte count of two (V13), and a byte count that is not `2*qty` (V14). -/
theorem witness_WriteBodyLengthsMustAgree_counts :
    (∀ operands, (framed ([0x11, 0x10] ++ operands) one).cfg.valid = true ∧
      (framed ([0x11, 0x10] ++ operands) one).pending = .delivered (.frame ([0x11, 0x10] ++ operands)) :: [] ∧
      stripCrc one.cfg ([0x11, 0x10] ++ operands) = some ([one.cfg.slaveAddr, 0x10] ++ operands)) ∧
    (∀ (s1 s0 q1 q0 n : Byte) (data : List Byte), [0, 2, 0, 1, 2, 0] = [s1, s0, q1, q0, n] ++ data →
      data.length ≠ n.toNat ∨ n.toNat ≠ 2 * (q1.toNat * 256 + q0.toNat)) ∧
    ∀ (s1 s0 q1 q0 n : Byte) (data : List Byte), [0, 2, 0, 1, 3, 0, 1, 0] = [s1, s0, q1, q0, n] ++ data →
      data.length ≠ n.toNat ∨ n.toNat ≠ 2 * (q1.toNat * 256 + q0.toNat) := by
  refine ⟨fun _ => ⟨rfl, rfl, rfl⟩, ?_, ?_⟩
  · rintro _ _ _ _ _ _ h
    simp only [List.cons_append, List.nil_append, List.cons.injEq] at h
    obtain ⟨rfl, rfl, rfl, rfl, rfl, rfl⟩ := h
    decide
  · rintro _ _ _ _ _ _ h
    simp only [List.cons_append, List.nil_append, List.cons.injEq] at h
    obtain ⟨rfl, rfl, rfl, rfl, rfl, rfl⟩ := h
    decide

theorem witness_UnsupportedFunctionAnswersOne :
    (framed [0x11, 0x00] one).cfg.valid = true ∧
    (framed [0x11, 0x00] one).pending = .delivered (.frame [0x11, 0x00]) :: [] ∧
    stripCrc one.cfg [0x11, 0x00] = some (one.cfg.slaveAddr :: 0x00 :: []) ∧
    (0x00 : Byte) ≠ 0x03 ∧ (0x00 : Byte) ≠ 0x10 ∧ (0x00 : Byte) ≠ 0x2B := by decide +kernel

theorem witness_UnsupportedCompletes :
    empty.cfg.valid = true ∧ (0xFF : Byte) ≠ 0x03 ∧ (0xFF : Byte) ≠ 0x10 ∧ (0xFF : Byte) ≠ 0x2B := by decide +kernel

/-- The last device of a full table, its first and last data byte. -/
theorem witness_RegisterMapOfTheTable :
    Config.ex.valid = true ∧ full.table.Wf Config.ex ∧ 3 < full.table.count ∧ 0 < Config.ex.dataLen ∧
      6 < Config.ex.dataLen := by decide +kernel

theorem witness_AddressDecodingIsABijection :
    1 ≤ full.table.count * (1 + Config.ex.dataLen) ∧ 32 ≤ full.table.count * (1 + Config.ex.dataLen) ∧
      0 < full.table.count ∧ 3 < full.table.count ∧ 0 < Config.ex.dataLen ∧ 6 < Config.ex.dataLen := by decide +kernel

/-- RD1 on the empty table, RD5 ending at `TOP`, and a response that fills its buffer. -/
theorem witness_ReadCompletes :
    one.cfg.valid = true ∧ empty.table.Wf empty.cfg ∧ one.table.Wf one.cfg ∧
    0 + 1 - 1 ≤ empty.table.count * (1 + empty.cfg.dataLen) ∧ 8 + 1 - 1 ≤ one.table.count * (1 + one.cfg.dataLen) ∧
    4 + 2 * 1 + crcLength one.cfg ≤ one.cfg.respBufLen ∧
    (holding small [recS 1]).cfg.valid = true ∧ (holding small [recS 1]).table.Wf small ∧
    2 + 2 - 1 ≤ (holding small [recS 1]).table.count * (1 + small.dataLen) ∧
    4 + 2 * 2 + crcLength small ≤ small.respBufLen := by
  and_intros <;> decide +kernel

/-- RD8, RD10; RD6, RD12. -/
theorem witness_ReadRejections :
    one.cfg.valid = true ∧ (0 : U16).toNat = 0 ∧ 0x7B < (0x7C : U16).toNat ∧
    1 ≤ (2 : U16).toNat ∧ (2 : U16).toNat ≤ 0x7B ∧
    one.table.count * (1 + one.cfg.dataLen) < (8 : U16).toNat + (2 : U16).toNat - 1 ∧
    one.table.count * (1 + one.cfg.dataLen) < (0xFFFF : U16).toNat + (2 : U16).toNat - 1 ∧
    one.table.count * (1 + one.cfg.dataLen) < (0 : U16).toNat + (0x7B : U16).toNat - 1 := by decide +kernel

/-- Three registers need ten bytes and `small` has eight. -/
theorem witness_OversizedReadAnswersOther :
    (holding small [recS 1]).cfg.valid = true ∧ (holding small [recS 1]).table.Wf small ∧
    1 + 3 - 1 ≤ (holding small [recS 1]).table.count * (1 + small.dataLen) ∧
    small.respBufLen < 4 + 2 * 3 + crcLength small := by decide +kernel

theorem witness_ReadDevReturnsTheDevice :
    full.cfg.valid = true ∧ full.table.Wf full.cfg ∧ 3 < full.table.count ∧ slotAt full.table 3 = some (recT 4) ∧
    1 + full.cfg.dataLen ≤ 0x7B ∧ 4 + 2 * (1 + full.cfg.dataLen) + crcLength full.cfg ≤ full.cfg.respBufLen := by
  decide +kernel

theorem witness_RepeatedReadsAnswerTheSame : ∃ t, exec (.read 1 8) one = .next t ∧ t.phase = .ready :=
  exists_next (by decide +kernel)

theorem witness_ReadIdentifyUnsupportedFrame :
    (∃ t, exec (.read 0 0x7C) one = .next t ∧ t.phase = .ready) ∧
    (∃ t, exec (.identify 0x0E 0x01 0x00) one = .next t ∧ t.phase = .ready) ∧
    ∃ t, exec (.unsupported 0x99) one = .next t ∧ t.phase = .ready :=
  ⟨exists_next (by decide +kernel), exists_next (by decide +kernel), exists_next (by decide +kernel)⟩

/-- The whole data block of the one device (W2) and its last register (W11). -/
theorem witness_WriteCompletes :
    (one.cfg.valid = true ∧ one.table.Wf one.cfg ∧ (14 : Byte).toNat = 2 * (7 : U16).toNat ∧
    (List.replicate 7 (0x00FF : U16)).length = (7 : U16).toNat ∧
    2 + 7 - 1 ≤ one.table.count * (1 + one.cfg.dataLen) ∧
    (∀ i, i < 7 → 2 + i ≠ 0 ∧ (2 + i - 1) % (1 + one.cfg.dataLen) ≠ 0) ∧
    8 + 1 - 1 ≤ one.table.count * (1 + one.cfg.dataLen) ∧ (8 + 0 - 1) % (1 + one.cfg.dataLen) ≠ 0) ∧
    ∀ v ∈ List.replicate 7 (0x00FF : U16), highByte v = 0 :=
  ⟨by and_intros <;> decide +kernel, highByte_of_mem_replicate rfl⟩

/-- Quantity 0 (W8) and 0x7C (W12); one beyond `TOP` (W6); register 0 (W3) and a type register (W4); value 0x0100 (W9). -/
theorem witness_WriteRejectionsInOrder :
    one.cfg.valid = true ∧
    ((0 : Byte).toNat = 2 * (0 : U16).toNat ∧ ([] : List U16).length = (0 : U16).toNat) ∧
    ((248 : Byte).toNat = 2 * (0x7C : U16).toNat ∧ (List.replicate 0x7C (0 : U16)).length = (0x7C : U16).toNat ∧
      0x7B < (0x7C : U16).toNat) ∧
    ((2 : Byte).toNat = 2 * (1 : U16).toNat ∧ [(0x0100 : U16)].length = (1 : U16).toNat) ∧
    one.table.count * (1 + one.cfg.dataLen) < (9 : U16).toNat + (1 : U16).toNat - 1 ∧
    ((0 : U16).toNat + (1 : U16).toNat - 1 ≤ one.table.count * (1 + one.cfg.dataLen) ∧ (0 : U16).toNat + 0 = 0) ∧
    ((1 : U16).toNat + (1 : U16).toNat - 1 ≤ one.table.count * (1 + one.cfg.dataLen) ∧
      ((1 : U16).toNat + 0 - 1) % (1 + one.cfg.dataLen) = 0) ∧
    ((8 : U16).toNat + (1 : U16).toNat - 1 ≤ one.table.count * (1 + one.cfg.dataLen) ∧
      (∀ i, i < 1 → (8 : U16).toNat + i ≠ 0 ∧ ((8 : U16).toNat + i - 1) % (1 + one.cfg.dataLen) ≠ 0) ∧
      highByte (0x0100 : U16) ≠ 0) := by decide +kernel

/-- W3, W5, and a type register far above `TOP`. -/
theorem witness_WriteTouchingReadOnlyAnswersBadAddress :
    two.cfg.valid = true ∧ (4 : Byte).toNat = 2 * (2 : U16).toNat ∧ [(1 : U16), 2].length = (2 : U16).toNat ∧
    (2 : U16).toNat ≤ 0x7B ∧ 0 < (2 : U16).toNat ∧ 1 < (2 : U16).toNat ∧
    (0 : U16).toNat + 0 = 0 ∧ (8 : U16).toNat + 1 = 1 + 1 * (1 + two.cfg.dataLen) ∧
    (800 : U16).toNat + 1 = 1 + 100 * (1 + two.cfg.dataLen) := by decide +kernel

/-- W1, and a WRITE of the whole data block with the values it already holds. -/
theorem witness_AcceptedWritesStayInOneDevice :
    (∃ t, exec (.write 2 2 4 [0x000A, 0x000B]) one = .next t ∧ t.outputs = one.outputs ++ [.response (frameOut one.cfg
      ([one.cfg.slaveAddr, 0x10] ++ split16 2 ++ split16 2))] ∧ t.table ≠ one.table) ∧
    ∃ t, exec (.write 2 7 14 [1, 2, 3, 4, 5, 6, 7]) one = .next t ∧ t.outputs = one.outputs ++ [.response (frameOut one.cfg
      ([one.cfg.slaveAddr, 0x10] ++ split16 2 ++ split16 7))] ∧ t.table = one.table :=
  ⟨exists_next (by decide +kernel), exists_next (by decide +kernel)⟩

theorem witness_WriteFrame :
    (∃ t, exec (.write 2 2 4 [0x000A, 0x000B]) one = .next t ∧ t.table ≠ one.table) ∧
    ∃ t, exec (.write 0 2 4 [0x000A, 0x000B]) one = .next t ∧ t.table = one.table :=
  ⟨exists_next (by decide +kernel), exists_next (by decide +kernel)⟩

/-- The whole data block of the second device. -/
theorem witness_WriteThenReadReturnsTheBytes :
    (two.cfg.valid = true ∧ two.table.Wf two.cfg ∧ 1 < two.table.count ∧ (14 : Byte).toNat = 2 * (7 : U16).toNat ∧
    (List.replicate 7 (0x00EE : U16)).length = (7 : U16).toNat ∧ 2 + 1 * (1 + two.cfg.dataLen) ≤ (10 : U16).toNat ∧
    (10 : U16).toNat + (7 : U16).toNat - 1 ≤ (1 + 1) * (1 + two.cfg.dataLen) ∧
    4 + 2 * 7 + crcLength two.cfg ≤ two.cfg.respBufLen ∧
    (encode two.cfg (.write 10 7 14 (List.replicate 7 0x00EE))).isSome = true ∧
    (encode two.cfg (.read 10 7)).isSome = true) ∧
    (∀ w r, (offered [.delivered (.frame w), .delivered (.frame r)] two).pending =
      .delivered (.frame w) :: .delivered (.frame r) :: []) ∧
    ∀ v ∈ List.replicate 7 (0x00EE : U16), highByte v = 0 :=
  ⟨by and_intros <;> decide +kernel, fun _ _ => rfl, highByte_of_mem_replicate rfl⟩

/-- Rejected for the slot and for the length by one; accepted up to the last byte of the last device. -/
theorem witness_WriteDataWritesExactlyItsBytes :
    two.table.Wf Config.ex ∧ two.table.count ≤ 2 ∧ Config.ex.dataLen < 6 + [(1 : Byte), 2].length ∧
    1 < two.table.count ∧ 5 + [(1 : Byte), 2].length ≤ Config.ex.dataLen := by decide +kernel

/-- A response that fits (22 bytes in 22) and one that does not (21). -/
theorem witness_IdentifyCompletes :
    { Config.ex with respBufLen := 22 }.valid = true ∧ { Config.ex with respBufLen := 21 }.valid = true ∧
    14 + Config.ex.vendorName.length + Config.ex.productCode.length + Config.ex.revision.length + crcLength Config.ex
      = 22 := by decide +kernel

theorem witness_UpdateOverwritesInPlace :
    full.cfg.valid = true ∧ full.table.Wf full.cfg ∧ (seven 0x00).length = full.cfg.dataLen ∧ 3 < full.table.count ∧
    identAt full.table 3 = some 4 := by decide +kernel

/-- Into the empty table, and into the last free slot. -/
theorem witness_AppendFillsTheNextSlot :
    empty.cfg.valid = true ∧ empty.table.Wf empty.cfg ∧ (seven 0x00).length = empty.cfg.dataLen ∧
    (∀ k, k < empty.table.count → identAt empty.table k ≠ some 9) ∧ empty.table.count < empty.cfg.maxDevices ∧
    (holding small [recS 1]).cfg.valid = true ∧ (holding small [recS 1]).table.Wf small ∧
    (∀ k, k < (holding small [recS 1]).table.count → identAt (holding small [recS 1]).table k ≠ some 9) ∧
    (holding small [recS 1]).table.count + 1 = small.maxDevices := by
  and_intros <;> decide +kernel

theorem witness_FullTableIgnoresNewIdentities :
    full.cfg.valid = true ∧ full.table.Wf full.cfg ∧ (seven 0x00).length = full.cfg.dataLen ∧
    (∀ k, k < full.table.count → identAt full.table k ≠ some 5) ∧ full.table.count = full.cfg.maxDevices := by
  decide +kernel

/-- Updated, appended and ignored. -/
theorem witness_AppendOrUpdateFrame :
    (∃ t, exec (.appendOrUpdate 0xA1 0x06 (seven 0x21)) two = .next t ∧ t.outputs = [.appendResult .updated]) ∧
    (∃ t, exec (.appendOrUpdate 0xC3 0x06 (seven 0x21)) two = .next t ∧ t.outputs = [.appendResult .appended]) ∧
    ∃ t, exec (.appendOrUpdate 0xC3 0x06 (seven 0x21)) full = .next t ∧ t.outputs = [.appendResult .ignored] :=
  ⟨exists_next (by decide +kernel), exists_next (by decide +kernel), exists_next (by decide +kernel)⟩

/-- Three commands for the two slots of `small`. -/
theorem witness_CapacityLaw :
    ∃ s : State, s.cfg.valid = true ∧ s.table.Wf s.cfg ∧ s.table.count = 0 ∧
      [recS 1, recS 2, recS 3].length = s.cfg.maxDevices + 1 ∧ ([recS 1, recS 2, recS 3].map Slot.ident).Nodup ∧
      (∀ sl ∈ [recS 1, recS 2, recS 3], sl.data.length = s.cfg.dataLen) ∧
      s.pending = [recS 1, recS 2, recS 3].map
        (fun sl => Event.delivered (.appendOrUpdate sl.ident sl.typ sl.data)) ++ [.reset] :=
  ⟨offered ([recS 1, recS 2, recS 3].map (fun sl => Event.delivered (.appendOrUpdate sl.ident sl.typ sl.data)) ++
    [.reset]) (holding small []), by and_intros <;> decide +kernel⟩

theorem witness_UpdateOverwritesMasterWrites :
    two.table.Wf two.cfg ∧ 1 < two.table.count ∧ identAt two.table 1 = some 0xB2 ∧
    ∃ t, exec (.appendOrUpdate 0xB2 0x06 (seven 0x21)) two = .next t ∧ t.table ≠ two.table :=
  ⟨by decide +kernel, by decide +kernel, by decide +kernel, exists_next (by decide +kernel)⟩

theorem witness_ClearEmptiesTheTable :
    two.cfg.valid = true ∧ 1 ≤ (1 : U16).toNat ∧ 1 ≤ (0xFFFF : U16).toNat ∧ 2 ≤ (2 : U16).toNat ∧
    (0x7B : U16).toNat ≤ 0x7B := by decide +kernel

theorem witness_ResetPutsEveryPieceOfState : full.cfg.valid = true := by decide

theorem witness_ResetInFlightAdmitsBothOutcomes :
    one.Inv ∧ (Delivery.frame writeFrame).wf one.cfg = true ∧
    (offered [.cutByReset (.frame writeFrame) true] one).Inv ∧ (offered [.cutByReset (.frame writeFrame) false] one).Inv ∧
    (offered [.cutByReset (.frame writeFrame) true] one).pending = .cutByReset (.frame writeFrame) true :: [] ∧
    (offered [.cutByReset (.frame writeFrame) false] one).pending = .cutByReset (.frame writeFrame) false :: [] := by
  and_intros <;> decide +kernel

/-- READ of one register at address 1, of registers 0 and 1, and of the longest range; a WRITE of one register. -/
theorem witness_FirstFrameAfterResetSeesAnEmptyTable :
    Config.ex.valid = true ∧ 1 ≤ (1 : U16).toNat ∧ 2 ≤ (2 : U16).toNat ∧ (0x7B : U16).toNat ≤ 0x7B ∧
    (2 : Byte).toNat = 2 * (1 : U16).toNat ∧ [(0x0001 : U16)].length = (1 : U16).toNat := by decide

/-- One beyond each bound. -/
theorem witness_InvalidConfigurationIsRefused :
    0xFFFF < { Config.ex with maxDevices := 8192 }.maxDevices * (1 + { Config.ex with maxDevices := 8192 }.dataLen) ∧
    0xFFFF < { Config.ex with maxDevices := 65536 }.maxDevices ∧ { Config.ex with dataLen := 0 }.dataLen < 1 ∧
    { Config.ex with respBufLen := 7 }.respBufLen < 8 := by decide

theorem witness_MisshapenCommandIsRefused :
    one.cfg.valid = true ∧ (List.replicate 6 (0x00 : Byte)).length ≠ one.cfg.dataLen ∧
    (List.replicate 8 (0x00 : Byte)).length ≠ one.cfg.dataLen := by decide

/-- A step that changes the table, from a state that meets the invariant. -/
theorem witness_StepKeepsTheInvariant :
    (framed writeFrame one).Inv ∧ ∃ t, step (framed writeFrame one) = .next t ∧ t.table ≠ one.table :=
  ⟨by decide +kernel, exists_next (by decide +kernel)⟩

theorem witness_ResetMeetsTheInvariant : Config.ex.valid = true ∧ Config.exRtu.valid = true := by decide

theorem witness_BlockRunsForEver :
    (offered [.delivered (.frame writeFrame), .reset, .delivered .clear] two).Inv ∧
    (offered [.delivered (.frame writeFrame), .reset, .delivered .clear] two).PendingWf := by decide +kernel

/-- A step that runs and one that is refused, both from states that meet the invariant. -/
theorem witness_StepStopsOnlyOnMisshapenCommands :
    (framed writeFrame one).Inv ∧ (offered [.delivered (.appendOrUpdate 0xA1 0x05 [])] one).Inv ∧
    (Delivery.appendOrUpdate 0xA1 0x05 []).wf one.cfg = false ∧
    (offered [.cutByReset (.appendOrUpdate 0xA1 0x05 []) true] one).Inv := by
  and_intros <;> decide +kernel

theorem witness_ConfigurationNeverChanges : ∃ t, step (framed writeFrame one) = .next t ∧ t.table ≠ one.table :=
  exists_next (by decide +kernel)

theorem witness_OneEventOneOutput :
    (framed writeFrame one).pending = .delivered (.frame writeFrame) :: [] ∧
    (∃ t, step (framed writeFrame one) = .next t ∧ t.table ≠ one.table) ∧
    ∃ t, step (offered [.reset] one) = .next t ∧ t.table ≠ one.table :=
  ⟨by decide +kernel, exists_next (by decide +kernel), exists_next (by decide +kernel)⟩

/-- Two bytes with a matching address, the shortest body answered, and a body of one byte. -/
theorem witness_AnsweredExactlyWhenAddressed :
    (∀ frame, (framed frame one).pending = .delivered (.frame frame) :: []) ∧ one.cfg.valid = true ∧
    one.table.Wf one.cfg ∧ stripCrc one.cfg [0x11, 0x00] = some (one.cfg.slaveAddr :: 0x00 :: []) ∧
    ¬∃ fc operands, stripCrc one.cfg [0x11] = some (one.cfg.slaveAddr :: fc :: operands) :=
  ⟨fun _ => rfl, by decide +kernel, by decide +kernel, by decide +kernel, by
    rintro ⟨_, _, h⟩
    simp [stripCrc, one, holding, Config.ex, State.resetWith] at h⟩

/-- From a phase no run is left in. -/
theorem witness_FramesReturnToReady :
    (framed strangerFrame { one with phase := .writing }).pending = .delivered (.frame strangerFrame) :: [] ∧
    ∃ t, step (framed strangerFrame { one with phase := .writing }) = .next t ∧ t.table = one.table :=
  ⟨rfl, exists_next (by decide +kernel)⟩

/-- A read that is answered by its eight bytes in a buffer of eight. -/
theorem witness_ResponsesFitTheBuffer :
    (framed [0x11, 0x03, 0x00, 0x02, 0x00, 0x02, 0x00, 0x00] (holding small [recS 1])).pending =
      .delivered (.frame [0x11, 0x03, 0x00, 0x02, 0x00, 0x02, 0x00, 0x00]) :: [] ∧
    ∃ t, step (framed [0x11, 0x03, 0x00, 0x02, 0x00, 0x02, 0x00, 0x00] (holding small [recS 1])) = .next t ∧
      t.outputs = [] ++ [.response [0x11, 0x03, 0x04, 0x00, 0x00, 0x01, 0x00, 0x02]] :=
  ⟨rfl, exists_next (by decide +kernel)⟩

/-- A success response and an exception response. -/
theorem witness_ResponsesCarryAddressAndFunction :
    (framed writeFrame one).pending = .delivered (.frame writeFrame) :: [] ∧
    stripCrc one.cfg writeFrame = some (one.cfg.slaveAddr :: 0x10 :: [0, 2, 0, 2, 4, 0, 0x0A, 0, 0x0B]) ∧
    (∃ t, step (framed writeFrame one) = .next t ∧
      t.outputs = [] ++ [.response [0x11, 0x10, 0x00, 0x02, 0x00, 0x02]]) ∧
    ∃ t, step (framed writeFrame empty) = .next t ∧ t.outputs = [] ++ [.response [0x11, 0x90, 0x02, 0x00, 0x00]] :=
  ⟨rfl, by decide +kernel, exists_next (by decide +kernel), exists_next (by decide +kernel)⟩

theorem witness_ExceptionsLeaveTheTableAlone :
    (framed [0x11, 0x10, 0, 8, 0, 2, 4, 0, 1, 0, 2] two).pending =
      .delivered (.frame [0x11, 0x10, 0, 8, 0, 2, 4, 0, 1, 0, 2]) :: [] ∧
    (∃ t, step (framed [0x11, 0x10, 0, 8, 0, 2, 4, 0, 1, 0, 2] two) = .next t ∧
      t.outputs = [] ++ [.response [0x11, 0x90, 0x02, 0x00, 0x00]]) ∧
    stripCrc two.cfg [0x11, 0x90, 0x02, 0x00, 0x00] = some [0x11, 0x90, 0x02, 0x00, 0x00] ∧
    (0x90 : Byte).getLsbD 7 = true :=
  ⟨rfl, exists_next (by decide +kernel), by decide +kernel, by decide⟩

theorem witness_FramesNeverChangeCountTypeOrIdentity :
    (framed writeFrame one).pending = .delivered (.frame writeFrame) :: [] ∧
    ∃ t, step (framed writeFrame one) = .next t ∧ t.table ≠ one.table :=
  ⟨rfl, exists_next (by decide +kernel)⟩

/-- The same record under another identity, and a write that changes both tables. -/
theorem witness_IdentitiesAreInvisibleToFrames :
    (framed writeFrame one).pending = .delivered (.frame writeFrame) :: [] ∧
    blankIdents (holding Config.ex [{ recA with ident := 0xFF }]).table = blankIdents one.table ∧
    (holding Config.ex [{ recA with ident := 0xFF }]).table ≠ one.table ∧
    ∃ t, step (framed writeFrame one) = .next t ∧ t.table ≠ one.table :=
  ⟨rfl, by decide +kernel, by decide +kernel, exists_next (by decide +kernel)⟩

/-- A stale record at the count, which the next append overwrites; and a write. -/
theorem witness_SlotsAboveTheCountAreInvisible :
    (∀ d, (offered [.delivered d] one).pending = .delivered d :: []) ∧
    AgreeBelowCount one.table { two.table with count := 1 } ∧ one.table ≠ { two.table with count := 1 } ∧
    (∃ t, step (offered [.delivered (.appendOrUpdate 0xC3 0x07 (seven 0x00))] one) = .next t ∧ t.table ≠ one.table) ∧
    ∃ t, step (framed writeFrame one) = .next t ∧ t.table ≠ one.table :=
  ⟨fun _ => rfl, ⟨by decide +kernel, by decide +kernel, by decide +kernel⟩, by decide +kernel,
    exists_next (by decide +kernel), exists_next (by decide +kernel)⟩

theorem witness_AdvertisementsBecomeWellFormedCommands :
    Config.ex.valid = true ∧ 1 ≤ Config.ex.dataLen - 1 ∧ Config.ex.dataLen - 1 < Config.ex.dataLen := by decide

end Sys2Proof.Tests
end

/-! PROOFS. The statements about the step as a whole (00_scope.md R5, R6, R9, R15): what one step does to each piece of
state, the invariant of the block and its runs of any length, and what an invalid configuration refuses. -/

namespace Sys2Proof.Machine

/-! ## What one step that answers can do -/

/-- Everything a step that answers a next state can do (R9): with no event pending, nothing; otherwise take the first event,
record it with one output that fits the buffer, keep the configuration and a well-formed table, and leave the phase as it
was or `Ready`. -/
theorem step_next_cases {s t : State} (h : step s = .next t) :
    (s.pending = [] ∧ t = s) ∨
    ∃ e rest, s.pending = e :: rest ∧ t.cfg = s.cfg ∧ t.pending = rest ∧ t.taken = s.taken ++ [e] ∧
      (t.phase = s.phase ∨ t.phase = .ready) ∧ (s.table.Wf s.cfg → t.table.Wf s.cfg) ∧
      ∃ o, t.outputs = s.outputs ++ [o] ∧ outputFits s.cfg o = true := by
  have hv := step_next_valid h
  cases hp : s.pending with
  | nil =>
    rw [step_of_idle hv hp] at h
    cases h
    exact .inl ⟨rfl, rfl⟩
  | cons e rest =>
    rw [step_of_pending hv hp] at h
    exact .inr ⟨e, rest, rfl, runEvent_next (s := afterTaking s e rest) hv h⟩

theorem step_next_cfg {s t : State} (h : step s = .next t) : t.cfg = s.cfg := by
  obtain ⟨-, rfl⟩ | ⟨_, _, -, hcfg, -⟩ := step_next_cases h
  · rfl
  · exact hcfg

/-! ## The invariant, and progress under it -/

/-- One step keeps the invariant of the block (R21 to R23, R26, R37). -/
theorem State.Inv.after_step {s t : State} (hs : s.Inv) (h : step s = .next t) : t.Inv := by
  obtain ⟨-, rfl⟩ | ⟨e, rest, -, hcfg, -, htaken, hphase, htable, o, houts, hfits⟩ := step_next_cases h
  · exact hs
  obtain ⟨hv, hw, hready, hlogs, hall⟩ := hs
  unfold State.Inv
  rw [hcfg]
  refine ⟨hv, htable hw, ?_, ?_, ?_⟩
  · exact hphase.elim (·.trans hready) id
  · simp [htaken, houts, hlogs]
  · simp [houts, hall, hfits]

/-- What stays pending after a step was pending before it, so it stays well formed. -/
theorem State.PendingWf.after_step {s t : State} (hs : s.PendingWf) (h : step s = .next t) : t.PendingWf := by
  obtain ⟨-, rfl⟩ | ⟨e, rest, hp, hcfg, hrest, -⟩ := step_next_cases h
  · exact hs
  unfold State.PendingWf at hs ⊢
  rw [hp, List.all_cons, Bool.and_eq_true] at hs
  rw [hcfg, hrest]
  exact hs.2

/-- From a good state with well-formed events pending the step answers a next state (R24). -/
theorem State.Inv.step_answers {s : State} (hs : s.Inv) (hp : s.PendingWf) : ∃ t, step s = .next t := by
  obtain ⟨hv, hw, -⟩ := hs
  cases hpend : s.pending with
  | nil => exact ⟨s, step_of_idle hv hpend⟩
  | cons e rest =>
    unfold State.PendingWf at hp
    rw [hpend, List.all_cons, Bool.and_eq_true] at hp
    rw [step_of_pending hv hpend]
    exact runEvent_of_wf_table (s := afterTaking s e rest) hv hw hp.1

/-- A run whose first step answers `t` goes on from `t`. -/
theorem run_succ_of_step_next {M : Host.Core} {s t : M.State} (h : M.step s = .next t) (k : Nat) :
    M.run (k + 1) s = M.run k t := by
  rw [Host.Core.run, h]

theorem SafeRun.of_step {k : Nat} {s t : State} (h : step s = .next t) (hrun : SafeRun k t) : SafeRun (k + 1) s := by
  obtain ⟨u, hu, hinv⟩ := hrun
  exact ⟨u, (run_succ_of_step_next (M := Sys2Proof.core) h k).trans hu, hinv⟩

/-! ## Invalid configurations -/

theorem guarded_of_invalid {i : Instr} {s : State} (hv : s.cfg.valid = false) (run : Result) :
    guarded i s run = .refused .invalidConfiguration := by simp [guarded, hv]

/-- Every meaning is guarded, so none runs under a configuration that R6 refuses. -/
theorem exec_of_invalid {s : State} (hv : s.cfg.valid = false) (i : Instr) :
    exec i s = .refused .invalidConfiguration := by
  cases i <;> exact guarded_of_invalid hv _

/-! ## The statements -/

/-- Settles O44: one step takes at most one event, and its output fits the buffer. -/
theorem stepKeepsTheInvariant : Obligations.StepKeepsTheInvariant :=
  fun _ _ hs h => hs.after_step h

/-- Settles O46, by induction on the number of steps: each one answers, and keeps the invariant and the shape of what is
pending. -/
theorem blockRunsForEver : Obligations.BlockRunsForEver := by
  intro s k
  induction k generalizing s with
  | zero => exact fun hs _ => ⟨s, rfl, hs⟩
  | succ k ih =>
    intro hs hp
    obtain ⟨t, h⟩ := hs.step_answers hp
    exact (ih t (hs.after_step h) (hp.after_step h)).of_step h

/-- Settles O48. -/
theorem configurationNeverChanges : Obligations.ConfigurationNeverChanges :=
  fun _ _ h => step_next_cfg h

/-- Settles O49: with an event pending, the step is the second case of `step_next_cases`. -/
theorem oneEventOneOutput : Obligations.OneEventOneOutput := by
  intro s t e rest hp h
  obtain ⟨hnil, -⟩ | ⟨e', rest', hp', -, hpend, htaken, -, -, o, houts, -⟩ := step_next_cases h
  · rw [hp] at hnil
    cases hnil
  · rw [hp] at hp'
    cases hp'
    exact ⟨hpend, htaken, o, houts⟩

/-- Settles O1: each CRC is evaluated. -/
theorem crcCheckValues : Obligations.CrcCheckValues := by
  unfold Obligations.CrcCheckValues
  decide +kernel

/-- Settles O9: the third case of `runFrame_cases`, on the state that has taken the frame. -/
theorem stepRunsTheDecodedRequest : Obligations.StepRunsTheDecodedRequest := by
  intro s frame rest i hv hp hd
  have hrun : step s = runFrame frame (afterTaking s (.delivered (.frame frame)) rest) := step_of_pending hv hp
  rw [hrun]
  obtain ⟨_, hd', -⟩ | ⟨_, hd', -⟩ | ⟨j, hd', hexec⟩ :=
    runFrame_cases (s := afterTaking s (.delivered (.frame frame)) rest) hv frame <;>
    rw [afterTaking_cfg, hd] at hd' <;> cases hd'
  exact hexec

/-- Settles O10: the transaction of each such event is `exec` of its command by definition. -/
theorem stepRunsPortCommands : Obligations.StepRunsPortCommands := by
  intro s rest hv
  refine ⟨?_, ?_, ?_, ?_⟩
  · exact fun _ _ _ hp => step_of_pending hv hp
  · exact fun hp => step_of_pending hv hp
  · exact fun hp => step_of_pending hv hp
  · exact fun hp => step_of_idle hv hp

/-- Settles O42: a valid configuration meets all four constraints (`Config.valid_iff`). -/
theorem invalidConfigurationIsRefused : Obligations.InvalidConfigurationIsRefused := by
  intro s hbad
  have hv : s.cfg.valid = false := by
    rw [← Bool.not_eq_true, Config.valid_iff]
    rintro ⟨hregs, hdevices, hdata, hbuf, -⟩
    omega
  exact ⟨step_of_invalid hv, exec_of_invalid hv⟩

end Sys2Proof.Machine

/-! PROOFS. What the state holds and who can see it (10_state.md R20 to R38): what each transaction leaves unchanged, the reset
values, progress from a good state, and the two parts of the table that are never observed, identities (R25) and slots at
or above the count (R24). -/

namespace Sys2Proof.Machine

/-! ## Tables with the same registers answer a frame alike -/

/-- A register other than register 0 is read from its device's slot alone (R126). -/
theorem regRead_eq_of_readSlot_eq (cfg : Config) {t u : DeviceTable} {a : Nat} (hcount : a = 0 → t.count = u.count)
    (hslot : readSlot t ((a - 1) / cfg.blockSize) = readSlot u ((a - 1) / cfg.blockSize)) :
    regRead cfg t a = regRead cfg u a := by
  unfold regRead decodeAddr
  by_cases h0 : a = 0
  · simp [h0, hcount h0]
  · by_cases hm : (a - 1) % cfg.blockSize = 0 <;> simp [h0, hm, hslot]

theorem regsRead_eq_of_regRead_eq {cfg : Config} {t u : DeviceTable} (hreg : ∀ a, regRead cfg t a = regRead cfg u a)
    (n : Nat) : ∀ a, regsRead cfg t a n = regsRead cfg u a n := by
  induction n with
  | zero => exact fun _ => rfl
  | succ n ih => intro a; rw [regsRead, regsRead, hreg, ih]

theorem rangeBad_eq_of_count_eq (cfg : Config) {t u : DeviceTable} (hcount : t.count = u.count) (start qty : Nat) :
    rangeBad cfg t start qty = rangeBad cfg u start qty := by
  rw [rangeBad, rangeBad, top, top, hcount]

theorem mapRead_eq_of_regRead_eq {cfg : Config} {t u : DeviceTable} (hcount : t.count = u.count)
    (hreg : ∀ a, regRead cfg t a = regRead cfg u a) (start qty : Nat) :
    mapRead cfg t start qty = mapRead cfg u start qty := by
  rw [mapRead, mapRead, rangeBad_eq_of_count_eq cfg hcount, regsRead_eq_of_regRead_eq hreg]

/-- A write pass reads nothing of the table but its count (R127). -/
theorem mapWrite_eq_of_count_eq (cfg : Config) {t u : DeviceTable} (hcount : t.count = u.count) (start qty : Nat)
    (values : List U16) : mapWrite cfg t start qty values = mapWrite cfg u start qty values := by
  rw [mapWrite, mapWrite, rangeBad_eq_of_count_eq cfg hcount]

/-- A request that completes completes alike on every table with the same count and registers: the same answer, and the same
commit, which is empty where nothing is written. -/
theorem exec_request_next_of_regRead_eq {i : Instr} {s t : State} {table : DeviceTable}
    (hreq : (encodeBody s.cfg i).isSome = true) (hcount : table.count = s.table.count)
    (hreg : ∀ a, regRead s.cfg table a = regRead s.cfg s.table a) (h : exec i s = .next t) :
    ∃ fs vs, t.table = commit s.cfg s.table fs vs ∧
      exec i { s with table := table } = .next { t with table := commit s.cfg table fs vs } := by
  obtain ⟨hv, hw⟩ := exec_next_guard h
  have hv' : ({ s with table := table } : State).cfg.valid = true := hv
  cases i with
  | read start qty =>
    rw [execRead_eq hv] at h
    rw [execRead_eq hv']
    dsimp only
    rw [mapRead_eq_of_regRead_eq hcount hreg]
    cases hm : mapRead s.cfg s.table start.toNat qty.toNat <;> rw [hm] at h <;> cases h
    · exact ⟨[], [], rfl, rfl⟩
    · exact ⟨[], [], rfl, rfl⟩
  | write start qty n values =>
    rw [execWrite_eq hv start qty n values hw] at h
    rw [execWrite_eq hv' start qty n values hw]
    dsimp only
    rw [mapWrite_eq_of_count_eq s.cfg hcount]
    cases hm : mapWrite s.cfg s.table start.toNat qty.toNat values <;> rw [hm] at h <;> cases h
    · exact ⟨_, values, rfl, rfl⟩
    · exact ⟨[], [], rfl, rfl⟩
  | identify m a o =>
    rw [execIdentify_eq hv] at h
    cases h
    exact ⟨[], [], rfl, execIdentify_eq hv' m a o⟩
  | unsupported fc =>
    rw [execUnsupported_eq hv hw] at h
    cases h
    exact ⟨[], [], rfl, execUnsupported_eq hv' hw⟩
  | appendOrUpdate identity typ data => simp [encodeBody] at hreq
  | clear => simp [encodeBody] at hreq
  | reset => simp [encodeBody] at hreq

/-- A request the validator hands on has a byte encoding (R159). -/
theorem decodeFrame_request_encodes {cfg : Config} {frame : List Byte} {i : Instr}
    (h : decodeFrame cfg frame = .request i) : (encodeBody cfg i).isSome = true := by
  obtain ⟨_, hd, -⟩ | ⟨_, _, -, hd⟩ := decodeFrame_cases cfg frame <;> rw [h] at hd
  · cases hd
  · exact (decodeFunction_request_wf cfg hd.symm).2

/-- What a frame can see of the table is its count and its registers (R60, R180): on every table with the same two it has the
same answer and the same commit. -/
theorem runFrame_next_of_regRead_eq {s t : State} {table : DeviceTable} {frame : List Byte}
    (hcount : table.count = s.table.count) (hreg : ∀ a, regRead s.cfg table a = regRead s.cfg s.table a)
    (h : runFrame frame s = .next t) :
    ∃ fs vs, t.table = commit s.cfg s.table fs vs ∧
      runFrame frame { s with table := table } = .next { t with table := commit s.cfg table fs vs } := by
  unfold runFrame at h ⊢
  simp only [setPhase_cfg] at h ⊢
  cases hd : decodeFrame s.cfg frame <;> rw [hd] at h
  case discard => cases h; exact ⟨[], [], rfl, rfl⟩
  case badShape => cases h; exact ⟨[], [], rfl, rfl⟩
  case request i =>
    exact exec_request_next_of_regRead_eq (s := setPhase .validating s) (decodeFrame_request_encodes hd) hcount hreg h

/-- A relation between tables that `write_data` keeps is kept by every commit (R106, R128). -/
theorem commit_rel {cfg : Config} {R : DeviceTable → DeviceTable → Prop}
    (hR : ∀ t u k offset bytes, R t u → R (writeData cfg t k offset bytes) (writeData cfg u k offset bytes))
    (fs : List Field) : ∀ {t u : DeviceTable} (vs : List U16), R t u → R (commit cfg t fs vs) (commit cfg u fs vs) := by
  induction fs with
  | nil => intro t u vs h; simpa [commit] using h
  | cons f fs ih =>
    intro t u vs h
    cases vs with
    | nil => simpa [commit] using h
    | cons v vs =>
      refine ih vs ?_
      cases f with
      | count => exact h
      | type k => exact h
      | data k j => exact hR t u k j _ h

/-- Noninterference of frames (R25, U2): tables related by `R` answer a frame alike and stay related, where `R` fixes the
count and the registers and `write_data` keeps it. -/
theorem step_frame_next_of_rel {s t : State} {table : DeviceTable} {frame : List Byte} {rest : List Event}
    {R : DeviceTable → DeviceTable → Prop} (hcount : table.count = s.table.count)
    (hreg : ∀ a, regRead s.cfg table a = regRead s.cfg s.table a)
    (hR : ∀ t u k offset bytes, R t u → R (writeData s.cfg t k offset bytes) (writeData s.cfg u k offset bytes))
    (hrel : R s.table table) (hp : s.pending = .delivered (.frame frame) :: rest) (h : step s = .next t) :
    ∃ u : State, step { s with table := table } = .next u ∧ u.outputs = t.outputs ∧ R t.table u.table := by
  have hv := step_next_valid h
  rw [step_of_pending hv hp] at h
  obtain ⟨fs, vs, htable, hrun⟩ :=
    runFrame_next_of_regRead_eq (s := afterTaking s (.delivered (.frame frame)) rest) hcount hreg h
  refine ⟨_, (step_of_pending (s := { s with table := table }) hv hp).trans hrun, rfl, ?_⟩
  rw [htable]
  exact commit_rel hR fs vs hrel

/-! ## Identities -/

/-- A record with its identity blanked, as in `blankIdents`. -/
def Slot.blankIdent (sl : Slot) : Slot := { sl with ident := 0 }

@[simp] theorem blankIdents_count (t : DeviceTable) : (blankIdents t).count = t.count := rfl

theorem blankIdents_slots (t : DeviceTable) : (blankIdents t).slots = t.slots.map (Option.map Slot.blankIdent) := rfl

/-- `read(k)` sees the record with its identity blanked, and faults where it did. -/
theorem readSlot_blankIdents (t : DeviceTable) (k : Nat) :
    readSlot (blankIdents t) k = (readSlot t k).map Slot.blankIdent := by
  unfold readSlot
  rw [blankIdents_count, blankIdents_slots, List.getElem?_map]
  by_cases hk : k < t.count
  · rcases t.slots[k]? with _ | _ | sl <;> simp [hk, Except.map]
  · simp [hk, Except.map]

/-- No register holds any part of an identity (R25). -/
@[simp] theorem regRead_blankIdents (cfg : Config) (t : DeviceTable) (a : Nat) :
    regRead cfg (blankIdents t) a = regRead cfg t a := by
  unfold regRead
  cases decodeAddr cfg a with
  | count => rfl
  | type k => dsimp only; rw [readSlot_blankIdents]; cases readSlot t k <;> rfl
  | data k j => dsimp only; rw [readSlot_blankIdents]; cases readSlot t k <;> rfl

theorem blankIdents_putSlot (t : DeviceTable) (k : Nat) (sl : Slot) :
    blankIdents (putSlot t k sl) = putSlot (blankIdents t) k sl.blankIdent := by
  simp [putSlot, blankIdents, List.map_set, Slot.blankIdent]

/-- `write_data` writes the same bytes whatever the identities. -/
theorem blankIdents_writeData (cfg : Config) (t : DeviceTable) (k offset : Nat) (bytes : List Byte) :
    blankIdents (writeData cfg t k offset bytes) = writeData cfg (blankIdents t) k offset bytes := by
  unfold writeData
  rw [readSlot_blankIdents]
  by_cases ho : offset + bytes.length ≤ cfg.dataLen
  · cases readSlot t k with
    | error f => simp [ho, Except.map]
    | ok sl => simp [ho, Except.map, blankIdents_putSlot, Slot.blankIdent]
  · simp [ho]

/-- Settles O56: tables with the same blanked form have the same registers, and `write_data` commutes with blanking. -/
theorem identitiesAreInvisibleToFrames : Obligations.IdentitiesAreInvisibleToFrames := by
  intro s t table frame rest hp hblank h
  have hcount : table.count = s.table.count := congrArg (·.count) hblank
  have hreg : ∀ a, regRead s.cfg table a = regRead s.cfg s.table a := fun a => by
    rw [← regRead_blankIdents, hblank, regRead_blankIdents]
  exact step_frame_next_of_rel (R := fun t u => blankIdents u = blankIdents t) hcount hreg
    (fun t u k offset bytes e => by rw [blankIdents_writeData, e, ← blankIdents_writeData]) hblank hp h

/-! ## Slots at or above the count -/

theorem AgreeBelowCount.getElem?_eq {t u : DeviceTable} (h : AgreeBelowCount t u) {k : Nat} (hk : k < t.count) :
    t.slots[k]? = u.slots[k]? := by
  obtain ⟨hcount, -, htake⟩ := h
  rw [← List.getElem?_take_of_lt hk, htake, List.getElem?_take_of_lt (hcount ▸ hk)]

/-- `read(k)` looks at no slot at or above the count (R24, R105). -/
theorem AgreeBelowCount.readSlot_eq {t u : DeviceTable} (h : AgreeBelowCount t u) (k : Nat) :
    readSlot t k = readSlot u k := by
  unfold readSlot
  rw [← h.1]
  by_cases hk : k < t.count
  · rw [h.getElem?_eq hk]
  · simp [hk]

theorem AgreeBelowCount.regRead_eq {t u : DeviceTable} (h : AgreeBelowCount t u) (cfg : Config) (a : Nat) :
    regRead cfg t a = regRead cfg u a :=
  regRead_eq_of_readSlot_eq cfg (fun _ => h.1) (h.readSlot_eq _)

theorem AgreeBelowCount.after_putSlot {t u : DeviceTable} (h : AgreeBelowCount t u) (k : Nat) (sl : Slot) :
    AgreeBelowCount (putSlot t k sl) (putSlot u k sl) := by
  obtain ⟨hcount, hlen, htake⟩ := h
  exact ⟨hcount, by simpa using hlen, by simp only [putSlot, List.take_set, htake]⟩

theorem AgreeBelowCount.after_writeData {t u : DeviceTable} (h : AgreeBelowCount t u) (cfg : Config) (k offset : Nat)
    (bytes : List Byte) : AgreeBelowCount (writeData cfg t k offset bytes) (writeData cfg u k offset bytes) := by
  unfold writeData
  rw [← h.readSlot_eq k]
  by_cases ho : offset + bytes.length ≤ cfg.dataLen
  · cases readSlot t k with
    | error f => simpa [ho] using h
    | ok sl => simpa [ho] using h.after_putSlot k _
  · simpa [ho] using h

/-- An append writes the slot at the count before it raises the count, so what that slot held is gone (R101). -/
theorem AgreeBelowCount.after_append {t u : DeviceTable} (h : AgreeBelowCount t u) (sl : Slot) :
    AgreeBelowCount { putSlot t t.count sl with count := t.count + 1 }
      { putSlot u u.count sl with count := u.count + 1 } := by
  obtain ⟨hcount, hlen, htake⟩ := h
  refine ⟨congrArg (· + 1) hcount, by simpa using hlen, ?_⟩
  simp only [putSlot, List.take_add_one, List.take_set, htake, ← hcount, List.getElem?_set, hlen, if_true]

theorem AgreeBelowCount.findIdent_eq {t u : DeviceTable} (h : AgreeBelowCount t u) (identity : Ident) (n : Nat) :
    ∀ k, findIdent t identity k n = findIdent u identity k n := by
  induction n with
  | zero => exact fun _ => rfl
  | succ n ih => intro k; rw [findIdent, findIdent, h.readSlot_eq, ih]

/-- AppendOrUpdate gives the same result on both tables, and they still agree below the count (R101). -/
theorem AgreeBelowCount.after_appendOrUpdate {t u t' : DeviceTable} {r : AppendResult} (h : AgreeBelowCount t u)
    (cfg : Config) (identity : Ident) (typ : Byte) (data : List Byte)
    (ht : tableAppendOrUpdate cfg t identity typ data = .ok (t', r)) :
    ∃ u', tableAppendOrUpdate cfg u identity typ data = .ok (u', r) ∧ AgreeBelowCount t' u' := by
  unfold tableAppendOrUpdate at ht ⊢
  rw [← h.1, ← h.findIdent_eq]
  rcases hf : findIdent t identity 0 t.count with f | _ | k <;> rw [hf] at ht
  · cases ht
  · by_cases hc : t.count < cfg.maxDevices
    · simp only [if_pos hc] at ht ⊢
      cases ht
      exact ⟨_, rfl, h.1 ▸ h.after_append _⟩
    · simp only [if_neg hc] at ht ⊢
      cases ht
      exact ⟨_, rfl, h⟩
  · cases ht
    exact ⟨_, rfl, h.after_putSlot k _⟩

theorem AgreeBelowCount.after_clear {t u : DeviceTable} (h : AgreeBelowCount t u) :
    AgreeBelowCount (tableClear t) (tableClear u) :=
  ⟨rfl, by simpa [tableClear] using h.2.1, rfl⟩

/-- APPEND_OR_UPDATE completes only with a data block of `DATA_LEN` bytes, and by what it does to the table (R101, R107). -/
theorem execAppendOrUpdate_next {s t : State} {identity : Ident} {typ : Byte} {data : List Byte}
    (h : exec (.appendOrUpdate identity typ data) s = .next t) :
    data.length = s.cfg.dataLen ∧ ∃ table r, tableAppendOrUpdate s.cfg s.table identity typ data = .ok (table, r) ∧
      t = { s with table := table, outputs := s.outputs ++ [.appendResult r] } := by
  obtain ⟨hv, hw⟩ := exec_next_guard h
  have hd : data.length = s.cfg.dataLen := by simpa [Instr.wf] using hw
  rw [execAppendOrUpdate_eq hv identity typ hd] at h
  split at h
  · next table r htable =>
    cases h
    exact ⟨hd, table, r, htable, rfl⟩
  · cases h

/-- Settles O57: a frame reads the table through its registers, AppendOrUpdate through `read(k)` alone, and Clear reads none of
it. -/
theorem slotsAboveTheCountAreInvisible : Obligations.SlotsAboveTheCountAreInvisible := by
  intro s t table d rest hp hagree h
  have hv := step_next_valid h
  cases d with
  | frame frame =>
    exact step_frame_next_of_rel hagree.1.symm (fun a => (hagree.regRead_eq s.cfg a).symm)
      (fun _ _ k offset bytes e => e.after_writeData s.cfg k offset bytes) hagree hp h
  | appendOrUpdate identity typ data =>
    rw [step_of_pending hv hp] at h
    obtain ⟨hd, t', r, htable, rfl⟩ := execAppendOrUpdate_next h
    obtain ⟨u', hu, hagree'⟩ := hagree.after_appendOrUpdate s.cfg identity typ data htable
    have hexec := execAppendOrUpdate_eq
      (s := afterTaking { s with table := table } (.delivered (.appendOrUpdate identity typ data)) rest)
      hv identity typ hd
    simp only [afterTaking_cfg, afterTaking_table, hu] at hexec
    exact ⟨_, (step_of_pending (s := { s with table := table }) hv hp).trans hexec, rfl, hagree'⟩
  | clear =>
    rw [step_of_pending hv hp] at h
    cases h.symm.trans (execClear_eq (s := afterTaking s (.delivered .clear) rest) hv)
    exact ⟨_, (step_of_pending (s := { s with table := table }) hv hp).trans (execClear_eq hv), rfl, hagree.after_clear⟩

/-! ## What a WRITE and an AppendOrUpdate leave unchanged -/

/-- Settles O28: a WRITE commits to the registers of its own range at most. -/
theorem writeFrame : Obligations.WriteFrame := by
  intro s t start qty n values h
  obtain ⟨fc, r, table, rfl, rfl | ⟨_, _, _, _, hi, rfl, -⟩, -⟩ := exec_request_next rfl h
  · exact ⟨rfl, rfl, rfl, rfl, ⟨_, rfl⟩, rfl, rfl, fun _ => ⟨rfl, rfl⟩, fun _ _ => rfl⟩
  · cases hi
    refine ⟨rfl, rfl, rfl, rfl, ⟨_, rfl⟩, by simp, by simp, by simp, fun a ha => ?_⟩
    refine regRead_commit_ne s.cfg _ s.table values ?_
    rw [decodeAddr_mem_fields_iff]
    omega

/-- An update leaves what `read` gives of every other slot (R101, R105). -/
theorem readSlot_putSlot_ne (t : DeviceTable) {k m : Nat} (sl : Slot) (h : m ≠ k) :
    readSlot (putSlot t k sl) m = readSlot t m := by
  simp [readSlot, putSlot, List.getElem?_set_ne h.symm]

/-- An append leaves what `read` gives of every slot below the count (R101, R105). -/
theorem readSlot_append_of_lt (t : DeviceTable) {m : Nat} (sl : Slot) (h : m < t.count) :
    readSlot { putSlot t t.count sl with count := t.count + 1 } m = readSlot t m := by
  simp [readSlot, putSlot, List.getElem?_set_ne (Nat.ne_of_gt h), h, Nat.lt_succ_of_lt h]

/-- A slot that putting a record changes holds that record. -/
theorem slotAt_putSlot_changed {t : DeviceTable} {k j : Nat} {sl : Slot}
    (h : slotAt (putSlot t k sl) j ≠ slotAt t j) : j = k ∧ slotAt (putSlot t k sl) j = some sl := by
  rw [slotAt_putSlot] at h ⊢
  split at h
  · next hj => exact ⟨hj.1, if_pos hj⟩
  · exact absurd rfl h

/-- The block of an allocated register above register 0 is that of a device below the count (R60, R122). -/
theorem device_of_allocated_lt {a n b : Nat} (h1 : 1 ≤ a) (h : a ≤ n * b) : (a - 1) / b < n :=
  Nat.div_lt_of_lt_mul (by rw [Nat.mul_comm]; omega)

/-- Settles O35: one case per result of `tableAppendOrUpdate_cases`. -/
theorem appendOrUpdateFrame : Obligations.AppendOrUpdateFrame := by
  intro s t identity typ data h
  obtain ⟨-, table, r, htable, rfl⟩ := execAppendOrUpdate_next h
  obtain ⟨k, hk, hid, e⟩ | ⟨-, -, e⟩ | ⟨-, -, e⟩ | ⟨e, -⟩ :=
    tableAppendOrUpdate_cases s.cfg s.table identity typ data <;> rw [e] at htable <;> cases htable
  case inl =>
    refine ⟨rfl, rfl, rfl, rfl, ⟨.updated, rfl, rfl⟩, by simp, fun j hj => ?_, fun a h1 _ ha => ?_⟩
    · obtain ⟨rfl, hput⟩ := slotAt_putSlot_changed hj
      exact ⟨hput, .inl hid⟩
    · exact regRead_eq_of_readSlot_eq s.cfg (by omega) (readSlot_putSlot_ne s.table _ (by rintro rfl; exact ha hid))
  case inr.inl =>
    refine ⟨rfl, rfl, rfl, rfl, ⟨.appended, rfl, rfl⟩, by simp, fun j hj => ?_, fun a h1 htop _ => ?_⟩
    · obtain ⟨rfl, hput⟩ := slotAt_putSlot_changed hj
      exact ⟨hput, .inr rfl⟩
    · exact regRead_eq_of_readSlot_eq s.cfg (by omega)
        (readSlot_append_of_lt s.table _ (device_of_allocated_lt h1 htop))
  case inr.inr.inl =>
    exact ⟨rfl, rfl, rfl, rfl, ⟨.ignored, rfl, rfl⟩, rfl, fun _ hj => absurd rfl hj, fun _ _ _ _ => rfl⟩

/-! ## The step -/

/-- A delivery that port D does not accept is refused for its shape (R107). -/
theorem runDelivery_of_misshapen {s : State} {d : Delivery} (hv : s.cfg.valid = true) (hd : d.wf s.cfg = false) :
    runDelivery d s = .refused .illFormedInstruction := by
  cases d with
  | frame bytes => cases hd
  | appendOrUpdate identity typ data =>
    have hw : (Instr.appendOrUpdate identity typ data).wf s.cfg = false := hd
    show guarded _ s _ = _
    simp [guarded, hv, hw]
  | clear => cases hd

/-- Settles O47: a well-formed event completes on a well-formed table, and any other carries a misshapen command. -/
theorem stepStopsOnlyOnMisshapenCommands : Obligations.StepStopsOnlyOnMisshapenCommands := by
  rintro s ⟨hv, hw, -⟩
  cases hp : s.pending with
  | nil => exact .inl ⟨s, step_of_idle hv hp⟩
  | cons e rest =>
    rw [step_of_pending hv hp]
    cases he : e.wf s.cfg with
    | true => exact .inl (runEvent_of_wf_table (s := afterTaking s e rest) hv hw he)
    | false =>
      right
      cases e with
      | delivered d =>
        exact ⟨runDelivery_of_misshapen (s := afterTaking s (.delivered d) rest) hv he, d, rest, he, .inl rfl⟩
      | reset => cases he
      | cutByReset d b =>
        have hrun := runDelivery_of_misshapen (s := afterTaking s (.cutByReset d b) rest) hv he
        exact ⟨by rw [runEvent, cutByReset, hrun], d, rest, he, .inr ⟨b, rfl⟩⟩

/-- A step whose next event is a frame answers what the frame's transaction answers (R9, R180). -/
theorem step_frame_next {s t : State} {frame : List Byte} {rest : List Event}
    (hp : s.pending = .delivered (.frame frame) :: rest) (h : step s = .next t) :
    s.cfg.valid = true ∧ runFrame frame (afterTaking s (.delivered (.frame frame)) rest) = .next t := by
  have hv := step_next_valid h
  exact ⟨hv, (step_of_pending hv hp).symm.trans h⟩

/-- Settles O51: `Ready` is the phase in every case of `runFrame_next`. -/
theorem framesReturnToReady : Obligations.FramesReturnToReady := by
  intro s t frame rest hp h
  obtain ⟨hv, hrun⟩ := step_frame_next hp h
  obtain ⟨-, -, -, hready, -⟩ := runFrame_next (s := afterTaking s _ rest) hv hrun
  exact hready

/-- Settles O55: the one change a frame makes to the table is a WRITE's commit. -/
theorem framesNeverChangeCountTypeOrIdentity : Obligations.FramesNeverChangeCountTypeOrIdentity := by
  intro s t frame rest hp h
  obtain ⟨hv, hrun⟩ := step_frame_next hp h
  obtain ⟨-, -, -, -, hcount, hlen, hslots, -⟩ := runFrame_next (s := afterTaking s _ rest) hv hrun
  exact ⟨hcount, hlen, hslots⟩

/-- Settles O52: the one output of a step fits the buffer, and the response is that output. -/
theorem responsesFitTheBuffer : Obligations.ResponsesFitTheBuffer := by
  intro s t frame bytes rest hp h hresp
  obtain ⟨hnil, -⟩ | ⟨_, _, -, -, -, -, -, -, o, houts, hfits⟩ := step_next_cases h
  · rw [hp] at hnil
    cases hnil
  · obtain rfl : o = .response bytes := by simpa using houts.symm.trans hresp
    simpa [outputFits] using hfits

/-! ## Reset and the collaborator's commands -/

/-- Settles O39: what `execReset_eq` gives, with the empty table written out. -/
theorem resetPutsEveryPieceOfState : Obligations.ResetPutsEveryPieceOfState :=
  fun _ hv => execReset_eq hv

theorem State.Inv.of_resetWith {cfg : Config} (hv : cfg.valid = true) : (State.resetWith cfg).Inv :=
  ⟨hv, DeviceTable.Wf.of_empty cfg, rfl, rfl, rfl⟩

/-- Settles O45: the empty table is well formed, and `EX` is valid. -/
theorem resetMeetsTheInvariant : Obligations.ResetMeetsTheInvariant :=
  ⟨fun _ hv => State.Inv.of_resetWith hv, State.Inv.of_resetWith (by decide)⟩

/-- Settles O58: the indicator's block is the state byte and `DATA_LEN - 1` zeros, and R6 makes `DATA_LEN` at least 1. -/
theorem advertisementsBecomeWellFormedCommands : Obligations.AdvertisementsBecomeWellFormedCommands := by
  intro cfg identity state typ data hv
  obtain ⟨-, -, hlen, -⟩ := (Config.valid_iff cfg).mp hv
  refine ⟨?_, ⟨_, rfl, rfl, fun j h1 hj => ?_⟩, rfl, rfl⟩
  · simp [indicatorAdvertisement, Delivery.wf, Nat.sub_add_cancel hlen]
  · obtain ⟨i, rfl⟩ := Nat.exists_eq_add_of_le' h1
    rw [List.getElem?_cons_succ, List.getElem?_replicate_of_lt (by omega)]

end Sys2Proof.Machine

/-! PROOFS. The register address space as memory (20_memory.md R51 to R61): the address map, what reads leave unchanged, a
write read back, and the registers of a cleared table. -/

namespace Sys2Proof.Machine

/-! ## The address map -/

/-- Settles O16: each register is read from its record by `regRead_type` or `regRead_data`, and R6 makes the count fit 16
bits. -/
theorem registerMapOfTheTable : Obligations.RegisterMapOfTheTable := by
  intro cfg t hv hw
  constructor
  · obtain ⟨-, hdevices, -⟩ := (Config.valid_iff cfg).mp hv
    obtain ⟨-, hcount, -⟩ := hw
    exact ⟨_, regRead_count cfg t, by rw [BitVec.toNat_ofNat]; omega⟩
  · intro k hk
    obtain ⟨sl, hread, hslot, hlen⟩ := hw.readSlot_ok hk
    refine ⟨sl, hslot, ⟨_, regRead_type cfg t hread, zext16_toNat _⟩, fun j hj => ?_⟩
    have hb : sl.data[j]? = some sl.data[j] := List.getElem?_eq_getElem (hlen ▸ hj)
    refine ⟨_, _, hb, ?_, zext16_toNat _⟩
    have haddr : 1 + k * (1 + cfg.dataLen) + 1 + j = 2 + k * cfg.blockSize + j := by unfold Config.blockSize; omega
    rw [haddr]
    exact regRead_data cfg t hread hj hb

/-! ## Requests that write nothing -/

/-- A request that is no WRITE hands over one response and changes nothing else (R55). -/
theorem exec_request_next_of_ne_write {i : Instr} {s t : State} (hreq : (encodeBody s.cfg i).isSome = true)
    (hne : ∀ start qty n values, i ≠ .write start qty n values) (h : exec i s = .next t) :
    ∃ bytes, t = answered s bytes := by
  obtain ⟨fc, r, table, rfl, rfl | ⟨start, qty, n, values, hi, -⟩, -⟩ := exec_request_next hreq h
  · exact ⟨_, rfl⟩
  · exact absurd hi (hne start qty n values)

/-- Settles O22: the first READ leaves the table as it was, and the answer depends on the configuration and the table
alone (`exec_request_uniform`). -/
theorem repeatedReadsAnswerTheSame : Obligations.RepeatedReadsAnswerTheSame := by
  intro s t start qty h
  obtain ⟨hv, hw⟩ := exec_next_guard h
  obtain ⟨_, ht⟩ := exec_request_next_of_ne_write rfl (by simp) h
  have htable : t.table = s.table := by rw [ht, answered_table]
  obtain ⟨bytes, table, hall⟩ | ⟨f, hall⟩ := exec_request_uniform s.table hv hw rfl
  · cases h.symm.trans (hall s rfl rfl)
    exact ⟨_, bytes, hall _ rfl htable, rfl, rfl, htable⟩
  · cases h.symm.trans (hall s rfl rfl)

/-- Settles O23: none of the three is a WRITE. -/
theorem readIdentifyUnsupportedFrame : Obligations.ReadIdentifyUnsupportedFrame := by
  intro s t i hi h
  obtain ⟨bytes, rfl⟩ : ∃ bytes, t = answered s bytes := by
    obtain ⟨_, _, rfl⟩ | ⟨_, _, _, rfl⟩ | ⟨_, rfl⟩ := hi <;>
      exact exec_request_next_of_ne_write rfl (by simp) h
  exact ⟨rfl, rfl, rfl, rfl, rfl, bytes, rfl⟩

/-! ## A READ by its range -/

/-- A READ whose quantity and range are good, and whose response fits, answers the registers of its range (R80, R182). -/
theorem execRead_of_regsRead {s : State} {start qty : U16} {regs : List U16} (hv : s.cfg.valid = true)
    (hq1 : 1 ≤ qty.toNat) (hq2 : qty.toNat ≤ 0x7B) (htop : start.toNat + qty.toNat - 1 ≤ top s.cfg s.table)
    (hfits : 4 + 2 * qty.toNat + crcLength s.cfg ≤ s.cfg.respBufLen)
    (hregs : regsRead s.cfg s.table start.toNat qty.toNat = .ok regs) :
    exec (.read start qty) s = .next (answered s (frameOut s.cfg
      ([s.cfg.slaveAddr, 0x03, BitVec.ofNat 8 (2 * qty.toNat), 0x00] ++ split16s regs))) := by
  have hlen : regs.length = qty.toNat := ((regsRead_eq_ok_iff s.cfg s.table _ _ _).mp hregs).1
  obtain ⟨hbad, -⟩ | ⟨-, -, hbad, -⟩ | ⟨-, -, -, ⟨regs', hregs', e⟩ | ⟨_, hbad, -⟩⟩ := execRead_cases hv start qty
  · omega
  · omega
  · cases hregs.symm.trans hregs'
    rw [e, build_readOk _ _ _ (by rw [split16s_length, hlen]; exact hfits)]
  · cases hregs.symm.trans hbad

/-- A READ of a good quantity whose range ends above `TOP` answers exception 0x02 (R123). -/
theorem execRead_above_top {s : State} {start qty : U16} (hv : s.cfg.valid = true) (hq1 : 1 ≤ qty.toNat)
    (hq2 : qty.toNat ≤ 0x7B) (htop : top s.cfg s.table < start.toNat + qty.toNat - 1) :
    exec (.read start qty) s = .next (answered s (exceptionFrame s.cfg 0x03 0x02)) := by
  obtain ⟨hbad, -⟩ | ⟨-, -, -, e⟩ | ⟨-, -, hbad, -⟩ := execRead_cases hv start qty
  · omega
  · exact e
  · omega

/-! ## A WRITE read back -/

/-- A WRITE that passes every check commits its values and answers the echo (R186). -/
theorem execWrite_of_accepted {s : State} {start qty : U16} {n : Byte} {values : List U16} (hv : s.cfg.valid = true)
    (hw : (Instr.write start qty n values).wf s.cfg = true) (hq1 : 1 ≤ qty.toNat) (hq2 : qty.toNat ≤ 0x7B)
    (htop : start.toNat + qty.toNat - 1 ≤ top s.cfg s.table)
    (hdata : ∀ i, i < qty.toNat → readOnly s.cfg (start.toNat + i) = false) (hhigh : ∀ v ∈ values, highByte v = 0) :
    exec (.write start qty n values) s = .next (answered
      { s with table := commit s.cfg s.table ((addresses start.toNat qty.toNat).map (decodeAddr s.cfg)) values }
      (frameOut s.cfg ([s.cfg.slaveAddr, 0x10] ++ split16 start ++ split16 qty))) := by
  obtain ⟨hbad, -⟩ | ⟨-, -, hbad, -⟩ | ⟨-, -, -, ⟨i, hi, hbad⟩, -⟩ | ⟨-, -, -, -, ⟨v, hmem, hbad⟩, -⟩ |
    ⟨-, -, -, -, -, e⟩ := execWrite_cases hv start qty n values hw
  · omega
  · omega
  · rw [hdata i hi] at hbad; cases hbad
  · exact absurd (hhigh v hmem) hbad
  · exact e

/-- The registers of a range read the values just committed to it, where every value is a byte (R58, R128, R129). -/
theorem regsRead_commit {cfg : Config} {t : DeviceTable} {start qty : Nat} {values : List U16} (ht : t.Wf cfg)
    (hlen : values.length = qty) (htop : start + qty - 1 ≤ top cfg t)
    (hdata : ∀ i, i < qty → readOnly cfg (start + i) = false) (hhigh : ∀ v ∈ values, highByte v = 0) :
    regsRead cfg (commit cfg t ((addresses start qty).map (decodeAddr cfg)) values) start qty = .ok values := by
  subst hlen
  rw [regsRead_eq_ok_iff]
  refine ⟨rfl, fun i v hi => ?_⟩
  have hreads : ∀ j, j < values.length → ∃ w, regRead cfg t (start + j) = .ok w :=
    fun j hj => regRead_ok_of_le_top ht (by omega)
  rw [regRead_commit_inside cfg values t start hdata hreads i v hi, zext16_lowByte (hhigh v (List.mem_of_getElem? hi))]

@[simp] theorem top_commit (cfg : Config) (t : DeviceTable) (fs : List Field) (vs : List U16) :
    top cfg (commit cfg t fs vs) = top cfg t := by rw [top, top, commit_count]

/-- The decoder gives back every well-formed request from its frame (R71 to R78, R86). -/
theorem decodeFrame_of_encode {cfg : Config} {i : Instr} {frame : List Byte} (hw : i.wf cfg = true)
    (h : encode cfg i = some frame) : decodeFrame cfg frame = .request i := by
  obtain ⟨body, hbody, rfl⟩ := Option.map_eq_some_iff.mp h
  cases i with
  | read start qty =>
    cases hbody
    refine (decodeFrame_of_addressed (stripCrc_frameOut cfg _)).trans ?_
    simp [decodeFunction, decodeRead, split16]
  | write start qty n values =>
    obtain ⟨hn, hlen⟩ : n.toNat = 2 * qty.toNat ∧ values.length = qty.toNat := by simpa [Instr.wf] using hw
    cases hbody
    refine (decodeFrame_of_addressed (stripCrc_frameOut cfg _)).trans ?_
    simp [decodeFunction, decodeWrite, split16, hn, hlen]
  | identify m a o =>
    cases hbody
    exact decodeFrame_of_addressed (stripCrc_frameOut cfg _)
  | unsupported fc =>
    obtain ⟨⟨h1, h2⟩, h3⟩ : (fc ≠ 0x03 ∧ fc ≠ 0x10) ∧ fc ≠ 0x2B := by simpa [Instr.wf, supportedFunction] using hw
    cases hbody
    rw [decodeFrame_of_addressed (stripCrc_frameOut cfg _), decodeFunction, if_neg h1, if_neg h2, if_neg h3]
  | appendOrUpdate identity typ data => cases hbody
  | clear => cases hbody
  | reset => cases hbody

/-- The step on the frame of a WRITE that passes every check (R180, R186). -/
theorem step_write_of_accepted {s : State} {start qty : U16} {n : Byte} {values : List U16} {frame : List Byte}
    {rest : List Event} (hv : s.cfg.valid = true) (hp : s.pending = .delivered (.frame frame) :: rest)
    (hframe : encode s.cfg (.write start qty n values) = some frame)
    (hw : (Instr.write start qty n values).wf s.cfg = true) (hq1 : 1 ≤ qty.toNat) (hq2 : qty.toNat ≤ 0x7B)
    (htop : start.toNat + qty.toNat - 1 ≤ top s.cfg s.table)
    (hdata : ∀ i, i < qty.toNat → readOnly s.cfg (start.toNat + i) = false) (hhigh : ∀ v ∈ values, highByte v = 0) :
    step s = .next (answered
      { afterTaking s (.delivered (.frame frame)) rest with
        table := commit s.cfg s.table ((addresses start.toNat qty.toNat).map (decodeAddr s.cfg)) values }
      (frameOut s.cfg ([s.cfg.slaveAddr, 0x10] ++ split16 start ++ split16 qty))) :=
  (stepRunsTheDecodedRequest s frame rest _ hv hp (decodeFrame_of_encode hw hframe)).trans
    (execWrite_of_accepted hv hw hq1 hq2 htop hdata hhigh)

/-- The step on the frame of a READ whose quantity and range are good, and whose response fits (R180, R182). -/
theorem step_read_of_regsRead {s : State} {start qty : U16} {regs : List U16} {frame : List Byte} {rest : List Event}
    (hv : s.cfg.valid = true) (hp : s.pending = .delivered (.frame frame) :: rest)
    (hframe : encode s.cfg (.read start qty) = some frame) (hq1 : 1 ≤ qty.toNat) (hq2 : qty.toNat ≤ 0x7B)
    (htop : start.toNat + qty.toNat - 1 ≤ top s.cfg s.table)
    (hfits : 4 + 2 * qty.toNat + crcLength s.cfg ≤ s.cfg.respBufLen)
    (hregs : regsRead s.cfg s.table start.toNat qty.toNat = .ok regs) :
    step s = .next (answered (afterTaking s (.delivered (.frame frame)) rest) (frameOut s.cfg
      ([s.cfg.slaveAddr, 0x03, BitVec.ofNat 8 (2 * qty.toNat), 0x00] ++ split16s regs))) :=
  (stepRunsTheDecodedRequest s frame rest _ hv hp (decodeFrame_of_encode rfl hframe)).trans
    (execRead_of_regsRead hv hq1 hq2 htop hfits hregs)

/-- Settles O29: the first step commits the values (`step_write_of_accepted`), and the second reads the same range of the
committed table (`regsRead_commit`). -/
theorem writeThenReadReturnsTheBytes : Obligations.WriteThenReadReturnsTheBytes := by
  intro s start qty n values k wframe rframe rest hv ht hk hq1 hq2 hn hlen hfirst hlast hhigh hfits hwrite hread hp
  have hw : (Instr.write start qty n values).wf s.cfg = true := by simp [Instr.wf, hn, hlen]
  have hblock : start.toNat + qty.toNat ≤ 2 + k * s.cfg.blockSize + s.cfg.dataLen := by
    rw [Nat.succ_mul] at hlast
    unfold Config.blockSize
    omega
  have htop : start.toNat + qty.toNat - 1 ≤ top s.cfg s.table := by
    have := le_top_of_device_lt s.cfg s.table hk le_rfl
    omega
  have hdata := data_range_not_readOnly s.cfg hfirst hblock
  have hregs := regsRead_commit ht hlen htop hdata hhigh
  exact ⟨_, _, step_write_of_accepted hv hp hwrite hw hq1 hq2 htop hdata hhigh,
    step_read_of_regsRead hv rfl hread hq1 hq2 (htop.trans_eq (top_commit s.cfg s.table _ _).symm) hfits hregs, rfl,
    by simp⟩

/-! ## The cleared table -/

@[simp] theorem tableClear_count (t : DeviceTable) : (tableClear t).count = 0 := rfl

@[simp] theorem tableClear_slots_length (t : DeviceTable) : (tableClear t).slots.length = t.slots.length := by
  simp [tableClear]

@[simp] theorem slotAt_tableClear (t : DeviceTable) (k : Nat) : slotAt (tableClear t) k = none := by
  rw [slotAt, tableClear, List.getElem?_map]
  cases t.slots[k]? <;> rfl

/-- A cleared table has no register but register 0 (R61, R122). -/
@[simp] theorem top_tableClear (cfg : Config) (t : DeviceTable) : top cfg (tableClear t) = 0 := by
  rw [top, tableClear_count, Nat.zero_mul]

/-- Settles O38: `TOP` is 0, so a range that is not register 0 alone ends above it. -/
theorem clearEmptiesTheTable : Obligations.ClearEmptiesTheTable := by
  intro s hv
  refine ⟨_, execClear_eq hv, rfl, rfl, tableClear_slots_length _, slotAt_tableClear _, rfl, ?_⟩
  intro start qty hq1 hq2 hrange
  refine execRead_above_top hv hq1 hq2 ?_
  rw [top_tableClear]
  omega

end Sys2Proof.Machine

/-! PROOFS. Frames and the requests and responses they carry (30_encoding.md R71 to R87): what the decoder makes of a frame,
and what READ, WRITE and IDENTIFY answer in one. -/

namespace Sys2Proof.Machine

/-! ## Frames into requests -/

/-- Settles O4, by the constructors of the instruction (`decodeFrame_of_encode`). -/
theorem decodeOfEncodeIsIdentity : Obligations.DecodeOfEncodeIsIdentity :=
  fun _ _ _ hw h => decodeFrame_of_encode hw h

/-- Settles O2: what passes is `frameOut` of the body (`stripCrc_eq_some_iff`), written out for each `CRC_MODE`. -/
theorem crcStagePassesExactlyFramedBodies : Obligations.CrcStagePassesExactlyFramedBodies := by
  intro cfg frame body
  rw [stripCrc_eq_some_iff, frameOut]
  cases cfg.crcMode with
  | none => exact Iff.rfl
  | modbusRtu => exact Iff.rfl

/-- The function stages hand on a WRITE whose byte count fits (R75, R158). -/
theorem decodeFunction_write (s1 s0 q1 q0 n : Byte) {data : List Byte} (hlen : data.length = n.toNat)
    (hn : n.toNat = 2 * (be16 q1 q0).toNat) :
    decodeFunction 0x10 (s1 :: s0 :: q1 :: q0 :: n :: data) =
      .request (.write (be16 s1 s0) (be16 q1 q0) n (be16s data)) := by
  have hops := (decodeWrite_eq_some_iff _ _).mpr ⟨s1, s0, q1, q0, n, data, rfl, hlen, hn, rfl⟩
  simp [decodeFunction, hops]

/-- Settles O7: the operands are `be16` of their bytes, and the values `be16s` of the payload. -/
theorem writeOperandsAreBigEndian : Obligations.WriteOperandsAreBigEndian := by
  intro cfg frame data s1 s0 q1 q0 n hstrip hlen hn
  rw [← be16_toNat] at hn
  refine ⟨be16 s1 s0, be16 q1 q0, be16s data, ?_, be16_toNat s1 s0, be16_toNat q1 q0,
    be16s_length _ data (hlen.trans hn), fun i hi lo hhi hlo => ?_⟩
  · exact (decodeFrame_of_addressed hstrip).trans (decodeFunction_write s1 s0 q1 q0 n hlen hn)
  · exact ⟨be16 hi lo, be16s_getElem? i data hi lo hhi hlo, be16_toNat hi lo⟩

/-- Settles O3: each frame is decoded by evaluation. -/
theorem knownFramesDecode : Obligations.KnownFramesDecode := by
  unfold Obligations.KnownFramesDecode
  decide +kernel

/-- Settles O6: neither operand form names its reserved bytes. -/
theorem reservedRequestBytesAreIgnored : Obligations.ReservedRequestBytesAreIgnored := by
  intro cfg start qty m a o r1 r2 r3
  constructor
  · refine (decodeFrame_of_addressed (stripCrc_frameOut cfg _)).trans ?_
    simp [decodeFunction, decodeRead, split16]
  · exact decodeFrame_of_addressed (stripCrc_frameOut cfg _)

/-! ## READ -/

/-- Settles O18: every register at or below `TOP` of a well-formed table reads. -/
theorem readCompletes : Obligations.ReadCompletes := by
  intro s start qty hv ht hq1 hq2 htop hfits
  obtain ⟨regs, hregs⟩ := regsRead_ok_of_le_top ht qty.toNat start.toNat (.inr htop)
  obtain ⟨hlen, hreg⟩ := (regsRead_eq_ok_iff s.cfg s.table _ _ _).mp hregs
  exact ⟨regs, hlen, hreg, execRead_of_regsRead hv hq1 hq2 htop hfits hregs⟩

/-- The registers of a device's block are its type byte and then its data bytes, each zero-extended (R60). -/
theorem regsRead_device {cfg : Config} {t : DeviceTable} {k : Nat} {sl : Slot} (hread : readSlot t k = .ok sl)
    (hlen : sl.data.length = cfg.dataLen) :
    regsRead cfg t (1 + k * cfg.blockSize) cfg.blockSize = .ok ((sl.typ :: sl.data).map zext16) := by
  rw [regsRead_eq_ok_iff]
  refine ⟨by simp [Config.blockSize, hlen, Nat.add_comm], fun i v hi => ?_⟩
  cases i with
  | zero =>
    obtain rfl : zext16 sl.typ = v := by simpa using hi
    exact regRead_type cfg t hread
  | succ j =>
    obtain ⟨b, hb, rfl⟩ : ∃ b, sl.data[j]? = some b ∧ zext16 b = v := by simpa using hi
    have hj : j < cfg.dataLen := hlen ▸ (List.getElem?_eq_some_iff.mp hb).1
    rw [show 1 + k * cfg.blockSize + (j + 1) = 2 + k * cfg.blockSize + j by omega]
    exact regRead_data cfg t hread hj hb

/-- R6 makes every allocated register address fit 16 bits. -/
theorem top_lt_of_valid {cfg : Config} {t : DeviceTable} (hv : cfg.valid = true) (ht : t.Wf cfg) :
    top cfg t < 2 ^ 16 := by
  obtain ⟨hregs, -⟩ := (Config.valid_iff cfg).mp hv
  obtain ⟨-, hcount, -⟩ := ht
  have : top cfg t ≤ cfg.maxDevices * (1 + cfg.dataLen) := Nat.mul_le_mul_right _ hcount
  omega

/-- Settles O21: READDEV `k` reads the block of device `k` (`regsRead_device`), which R6 keeps within 16-bit addresses. -/
theorem readDevReturnsTheDevice : Obligations.ReadDevReturnsTheDevice := by
  intro s k sl hv ht hk hslot hquantity hfits
  have hregs := regsRead_device ((readSlot_eq_ok_iff s.table k sl).mpr ⟨hk, hslot⟩) (ht.slotAt_some hslot).2
  have hlast := le_top_of_device_lt s.cfg s.table hk le_rfl
  have hfit := top_lt_of_valid hv ht
  unfold Config.blockSize at hregs hlast
  have hstart : (BitVec.ofNat 16 (1 + k * (1 + s.cfg.dataLen))).toNat = 1 + k * (1 + s.cfg.dataLen) :=
    Nat.mod_eq_of_lt (by omega)
  have hqty : (BitVec.ofNat 16 (1 + s.cfg.dataLen)).toNat = 1 + s.cfg.dataLen := Nat.mod_eq_of_lt (by omega)
  have hread := execRead_of_regsRead (s := s) (start := BitVec.ofNat 16 (1 + k * (1 + s.cfg.dataLen)))
    (qty := BitVec.ofNat 16 (1 + s.cfg.dataLen)) hv (by omega) (by omega) (by omega) (by omega)
    (by rw [hstart, hqty]; exact hregs)
  rwa [hqty] at hread

/-! ## WRITE -/

/-- Settles O24: the table is the commit of the values, which its own range reads back (`regsRead_commit`) and no other
register sees (`regRead_commit_ne`). -/
theorem writeCompletes : Obligations.WriteCompletes := by
  intro s start qty n values hv ht hn hlen hq1 hq2 htop hwritable hhigh
  have hw : (Instr.write start qty n values).wf s.cfg = true := by simp [Instr.wf, hn, hlen]
  have hdata : ∀ i, i < qty.toNat → readOnly s.cfg (start.toNat + i) = false := fun i hi => by
    rw [← Bool.not_eq_true, readOnly_eq_true_iff, not_or]
    exact hwritable i hi
  have hregs := regsRead_commit ht hlen htop hdata hhigh
  refine ⟨_, execWrite_of_accepted hv hw hq1 hq2 htop hdata hhigh, commit_count s.cfg _ _ _,
    ((regsRead_eq_ok_iff s.cfg _ _ _ _).mp hregs).2, fun a ha => ?_,
    fun k => ⟨commit_identAt s.cfg _ k _ _, commit_typAt s.cfg _ k _ _⟩⟩
  have houtside : decodeAddr s.cfg a ∉ (addresses start.toNat qty.toNat).map (decodeAddr s.cfg) := by
    rw [decodeAddr_mem_fields_iff]
    omega
  exact regRead_commit_ne s.cfg _ _ _ houtside

/-! ## IDENTIFY -/

/-- An identification response that fits is the layout RS_ID in its framing (R82, R230). -/
theorem build_idOk {cfg : Config} (fc m a cl mf no n : Byte) (objects : List Byte)
    (h : 8 + objects.length + crcLength cfg ≤ cfg.respBufLen) :
    build cfg fc (.idOk m a cl mf no n objects) = frameOut cfg ([cfg.slaveAddr, 0x2B, m, a, cl, mf, no, n] ++ objects) := by
  rw [build, replyBody, capacity_of_fits _ (by simp; omega)]

/-- Settles O31: the response is 8 bytes and the objects, 6 bytes and the three strings (`idObjects_length`). -/
theorem identifyCompletes : Obligations.IdentifyCompletes := by
  intro s m a o hv
  have hlen := idObjects_length s.cfg
  rw [execIdentify_eq hv]
  split
  · rw [build_idOk _ _ _ _ _ _ _ _ (by omega)]
    simp [idObjects, idObject, objectsNumber]
  · rw [build_of_not_fits _ _ (by simp [replyBody]; omega)]

/-! ## Every response -/

/-- Settles O53: byte 1 is that of the reply, or of the exception the capacity check puts in its place (`build_header`). -/
theorem responsesCarryAddressAndFunction : Obligations.ResponsesCarryAddressAndFunction := by
  intro s t frame bytes operands fc rest hp h hstrip hresp
  obtain ⟨hv, hrun⟩ := step_frame_next hp h
  obtain ⟨-, -, -, -, -, -, -, -, ⟨-, -, hno⟩ | ⟨fc', ops, r, hstrip', houts, hbyte, -⟩⟩ :=
    runFrame_next (s := afterTaking s _ rest) hv hrun
  · exact absurd ⟨fc, operands, hstrip⟩ hno
  · obtain ⟨rfl, rfl⟩ : fc = fc' ∧ operands = ops := by simpa using hstrip.symm.trans hstrip'
    obtain rfl : build s.cfg fc r = bytes := by simpa using houts.symm.trans hresp
    obtain ⟨f, tail, hbuild, hf⟩ := build_header s.cfg fc r
    refine ⟨s.cfg.slaveAddr :: f :: tail, by rw [hbuild, stripCrc_frameOut], rfl, ?_⟩
    obtain rfl | hf := hf
    · exact .inr rfl
    · rw [afterTaking_cfg, hf] at hbyte
      exact hbyte.symm

end Sys2Proof.Machine

/-! PROOFS. The device table and the commands of port D (40_device_table.md R100 to R107): `write_data`, the three results of
AppendOrUpdate, its refusal, and the capacity law. -/

namespace Sys2Proof.Machine

/-! ## AppendOrUpdate on a well-formed table -/

/-- An identity that a slot holds makes AppendOrUpdate an update of that slot: no other slot holds it (R23, R101, R102). -/
theorem DeviceTable.Wf.appendOrUpdate_known {cfg : Config} {t : DeviceTable} (h : t.Wf cfg) {k : Nat} {identity : Ident}
    (hk : k < t.count) (hid : identAt t k = some identity) (typ : Byte) (data : List Byte) :
    tableAppendOrUpdate cfg t identity typ data = .ok (putSlot t k ⟨identity, typ, data⟩, .updated) := by
  obtain ⟨sl, hread, hslot, -⟩ := h.readSlot_ok hk
  have hheld : sl.ident = identity := by simpa [identAt, hslot] using hid
  have hmissed : ¬∀ j, j < t.count → ∃ sl, slotAt t j = some sl ∧ sl.ident ≠ identity := fun hno => by
    obtain ⟨_, hslot', hne⟩ := hno k hk
    cases hslot.symm.trans hslot'
    exact hne hheld
  obtain ⟨j, hj, hid', e⟩ | ⟨hno, -⟩ | ⟨hno, -⟩ | ⟨-, j, hj, hbad⟩ := tableAppendOrUpdate_cases cfg t identity typ data
  · obtain ⟨-, -, -, -, hdistinct⟩ := h
    obtain rfl : j = k := by
      by_contra hjk
      exact hdistinct j hj k hk hjk (hid'.trans hid.symm)
    exact e
  · exact absurd hno hmissed
  · exact absurd hno hmissed
  · obtain ⟨_, hok, -⟩ := h.readSlot_ok hj
    cases hok.symm.trans hbad

/-- An identity that no slot below the count holds is appended where there is room and ignored where there is none
(R101). -/
theorem DeviceTable.Wf.appendOrUpdate_new {cfg : Config} {t : DeviceTable} (h : t.Wf cfg) {identity : Ident}
    (hnew : ∀ k, k < t.count → identAt t k ≠ some identity) (typ : Byte) (data : List Byte) :
    tableAppendOrUpdate cfg t identity typ data =
      if t.count < cfg.maxDevices then
        .ok ({ putSlot t t.count ⟨identity, typ, data⟩ with count := t.count + 1 }, .appended)
      else .ok (t, .ignored) := by
  obtain ⟨j, hj, hid, -⟩ | ⟨-, hroom, e⟩ | ⟨-, hfull, e⟩ | ⟨-, j, hj, hbad⟩ :=
    tableAppendOrUpdate_cases cfg t identity typ data
  · exact absurd hid (hnew j hj)
  · rw [e, if_pos hroom]
  · rw [e, if_neg (Nat.not_lt.mpr hfull)]
  · obtain ⟨_, hok, -⟩ := h.readSlot_ok hj
    cases hok.symm.trans hbad

/-! ## One command of port D -/

/-- Settles O32: the search finds slot `k` and no other (`appendOrUpdate_known`). -/
theorem updateOverwritesInPlace : Obligations.UpdateOverwritesInPlace := by
  intro s identity typ data k hv ht hd hk hid
  rw [execAppendOrUpdate_eq hv identity typ hd, ht.appendOrUpdate_known hk hid]
  rfl

/-- Settles O33: the first branch of `appendOrUpdate_new`. -/
theorem appendFillsTheNextSlot : Obligations.AppendFillsTheNextSlot := by
  intro s identity typ data hv ht hd hnew hroom
  rw [execAppendOrUpdate_eq hv identity typ hd, ht.appendOrUpdate_new hnew, if_pos hroom]
  rfl

/-- Settles O34: the second branch of `appendOrUpdate_new`. -/
theorem fullTableIgnoresNewIdentities : Obligations.FullTableIgnoresNewIdentities := by
  intro s identity typ data hv ht hd hnew hfull
  rw [execAppendOrUpdate_eq hv identity typ hd, ht.appendOrUpdate_new hnew, if_neg hfull.not_lt]

/-- Settles O43: such a delivery is misshapen (`runDelivery_of_misshapen`). -/
theorem misshapenCommandIsRefused : Obligations.MisshapenCommandIsRefused := by
  intro s identity typ data hv hd
  exact runDelivery_of_misshapen (d := .appendOrUpdate identity typ data) hv (by simpa [Delivery.wf] using hd)

/-! ## `write_data` -/

/-- Settles O30: the two cases of `writeData_cases`, with the bytes of `overwrite`. -/
theorem writeDataWritesExactlyItsBytes : Obligations.WriteDataWritesExactlyItsBytes := by
  intro cfg t k offset bytes ht
  obtain ⟨e, hrejected⟩ | ⟨sl, hread, hlen, e⟩ := writeData_cases cfg t k offset bytes
  · refine ⟨fun _ => e, fun hk ho => ?_⟩
    obtain ⟨sl, hread, -⟩ := ht.readSlot_ok hk
    exact absurd (hrejected sl hread) ho.not_gt
  · obtain ⟨hk, hslot⟩ := (readSlot_eq_ok_iff t k sl).mp hread
    refine ⟨fun hbad => by omega, fun _ _ => ⟨sl, overwrite sl.data offset bytes, hslot, ?_, fun i hi => ?_,
      overwrite_getElem?_outside bytes sl.data offset, fun m hm => ?_, writeData_count ..⟩⟩
    · rw [e, slotAt_putSlot_self _ (lt_length_of_slotAt hslot)]
    · exact overwrite_getElem?_inside bytes sl.data offset i hi (by rwa [(ht.slotAt_some hslot).2])
    · rw [e, slotAt_putSlot_ne t _ hm]

/-! ## The capacity law -/

/-- The slots below the count, in order. -/
def DeviceTable.populated (t : DeviceTable) : List (Option Slot) := t.slots.take t.count

/-- The port D command that advertises a record (R101). -/
def Slot.advertise (sl : Slot) : Event := .delivered (.appendOrUpdate sl.ident sl.typ sl.data)

/-- An append puts its record after the populated slots (R101). -/
theorem populated_append {t : DeviceTable} (h : t.count < t.slots.length) (sl : Slot) :
    DeviceTable.populated ⟨t.count + 1, t.slots.set t.count (some sl)⟩ = t.populated ++ [some sl] := by
  simp [DeviceTable.populated, List.take_add_one, List.take_set_of_le, h]

/-- In a full table every slot is populated. -/
theorem populated_of_full {t : DeviceTable} (h : t.slots.length ≤ t.count) : t.populated = t.slots :=
  List.take_of_length_le h

/-- The identity of a slot below the count is among those of the populated slots. -/
theorem identAt_mem_populated {t : DeviceTable} {k : Nat} {identity : Ident} (hk : k < t.count)
    (h : identAt t k = some identity) : some identity ∈ t.populated.map (Option.map Slot.ident) := by
  obtain ⟨sl, hslot, hid⟩ := Option.map_eq_some_iff.mp h
  have hget : t.slots[k]? = some (some sl) := Option.join_eq_some_iff.mp hslot
  rw [List.mem_map]
  refine ⟨some sl, List.mem_of_getElem? (i := k) ?_, by simp [hid]⟩
  rw [DeviceTable.populated, List.getElem?_take_of_lt hk, hget]

/-- The block is about to take the commands of the records `new`, whose identities differ from one another and from those
of the table. -/
structure AppendsPending (s : State) (new : List Slot) (rest : List Event) : Prop where
  valid : s.cfg.valid = true
  wf : s.table.Wf s.cfg
  distinct : ((s.table.populated ++ new.map some).map (Option.map Slot.ident)).Nodup
  shaped : ∀ sl ∈ new, sl.data.length = s.cfg.dataLen
  pending : s.pending = new.map Slot.advertise ++ rest

namespace AppendsPending

variable {s : State} {sl : Slot} {new : List Slot} {rest : List Event}

/-- No slot below the count holds the identity of the next record. -/
theorem next_is_new (h : AppendsPending s (sl :: new) rest) :
    ∀ k, k < s.table.count → identAt s.table k ≠ some sl.ident := fun k hk hid => by
  have hd := h.distinct
  rw [List.map_append, List.nodup_append] at hd
  obtain ⟨-, -, hdisjoint⟩ := hd
  exact hdisjoint _ (identAt_mem_populated hk hid) (some sl.ident) (by simp) rfl

/-- The step on the next command is its AppendOrUpdate. -/
theorem step_eq (h : AppendsPending s (sl :: new) rest) :
    step s = exec (.appendOrUpdate sl.ident sl.typ sl.data)
      (afterTaking s sl.advertise (new.map Slot.advertise ++ rest)) :=
  step_of_pending h.valid h.pending

/-- With room in the table the next command appends its record, and the later ones are still to come. -/
theorem step_with_room (h : AppendsPending s (sl :: new) rest) (hroom : s.table.count < s.cfg.maxDevices) :
    ∃ t, step s = .next t ∧ AppendsPending t new rest ∧ t.cfg = s.cfg ∧ t.table.count = s.table.count + 1 ∧
      t.table.populated = s.table.populated ++ [some sl] ∧ t.outputs = s.outputs ++ [.appendResult .appended] := by
  have hshape := h.shaped sl List.mem_cons_self
  obtain ⟨hlen, -⟩ := h.wf
  have hpop := populated_append (hroom.trans_eq hlen.symm) sl
  have hstep := h.step_eq.trans (appendFillsTheNextSlot (afterTaking s _ _) sl.ident sl.typ sl.data h.valid h.wf hshape
    h.next_is_new hroom)
  obtain ⟨_, _, e, hwf⟩ := h.wf.after_appendOrUpdate sl.ident sl.typ hshape
  rw [h.wf.appendOrUpdate_new h.next_is_new, if_pos hroom] at e
  cases e
  refine ⟨_, hstep, ⟨h.valid, hwf, ?_, fun x hx => h.shaped x (List.mem_cons_of_mem _ hx), rfl⟩, rfl, rfl, hpop, rfl⟩
  have hd := h.distinct
  rwa [List.map_cons, ← List.singleton_append, ← List.append_assoc, ← hpop] at hd

/-- On a full table the next command is ignored. -/
theorem step_when_full (h : AppendsPending s (sl :: new) rest) (hfull : s.table.count = s.cfg.maxDevices) :
    ∃ t, step s = .next t ∧ t.table = s.table ∧ t.pending = new.map Slot.advertise ++ rest ∧
      t.outputs = s.outputs ++ [.appendResult .ignored] :=
  ⟨_, h.step_eq.trans (fullTableIgnoresNewIdentities (afterTaking s _ _) sl.ident sl.typ sl.data h.valid h.wf
    (h.shaped sl List.mem_cons_self) h.next_is_new hfull), rfl, rfl, rfl⟩

/-- With room for the records `new`, as many steps append them in their order; the run goes on with the `later` ones. -/
theorem run_with_room (k : Nat) {later : List Slot} (h : AppendsPending s (new ++ later) rest)
    (hroom : s.table.count + new.length ≤ s.cfg.maxDevices) :
    ∃ t : State, Host.Core.run Sys2Proof.core (new.length + k) s = Host.Core.run Sys2Proof.core k t ∧
      AppendsPending t later rest ∧ t.cfg = s.cfg ∧ t.table.count = s.table.count + new.length ∧
      t.table.populated = s.table.populated ++ new.map some ∧
      t.outputs = s.outputs ++ List.replicate new.length (.appendResult .appended) := by
  induction new generalizing s with
  | nil => exact ⟨s, by simp, h, rfl, rfl, by simp, by simp⟩
  | cons sl new ih =>
    rw [List.length_cons] at hroom
    obtain ⟨u, hstep, hu, hcfg, hcount, hpop, hout⟩ := h.step_with_room (by omega)
    obtain ⟨t, hrun, ht, hcfg', hcount', hpop', hout'⟩ := ih hu (by rw [hcount, hcfg]; omega)
    refine ⟨t, ?_, ht, hcfg'.trans hcfg, ?_, ?_, ?_⟩
    · rw [List.length_cons, Nat.add_right_comm]
      exact (run_succ_of_step_next (M := Sys2Proof.core) hstep _).trans hrun
    · rw [hcount', hcount, List.length_cons]; omega
    · simp [hpop', hpop]
    · simp [hout', hout, List.replicate_succ]

end AppendsPending

/-- Settles O36: all records but the last fill the table (`run_with_room`), and the last meets it full (`step_when_full`). -/
theorem capacityLaw : Obligations.CapacityLaw := by
  intro s records rest hv ht hempty hlen hdistinct hshaped hpending
  obtain rfl | ⟨first, last, rfl⟩ := List.eq_nil_or_concat' records
  · cases hlen
  have hfirst : first.length = s.cfg.maxDevices := by simpa using hlen
  have hnone : s.table.populated = [] := by simp [DeviceTable.populated, hempty]
  have hpend : AppendsPending s (first ++ [last]) rest := by
    refine ⟨hv, ht, ?_, hshaped, hpending⟩
    have hidents : ((first ++ [last]).map some).map (Option.map Slot.ident) =
        ((first ++ [last]).map Slot.ident).map some := by simp
    rw [hnone, List.nil_append, hidents]
    exact hdistinct.map (Option.some_injective _)
  obtain ⟨t, hrun, hlast, hcfg, hcount, hpop, hout⟩ := hpend.run_with_room 1 (by omega)
  have hfull : t.table.count = s.cfg.maxDevices := by omega
  have hslots : t.table.slots = first.map some := by
    obtain ⟨harena, -⟩ := hlast.wf
    rw [← populated_of_full (by rw [harena, hcfg, hfull]), hpop, hnone, List.nil_append]
  obtain ⟨u, hstep, htable, hrest, hout'⟩ := hlast.step_when_full (hfull.trans (congrArg _ hcfg.symm))
  refine ⟨u, ?_, ?_, ?_, hrest⟩
  · rw [← hfirst, hrun]
    exact run_succ_of_step_next (M := Sys2Proof.core) hstep 0
  · rw [hout', hout, hfirst]
  · rw [htable, List.take_left' hfirst, ← hslots, ← hfull]

end Sys2Proof.Machine

/-! PROOFS. The register mapper (41_register_mapper.md R120 to R132): the bijection of R132, the rejections of READ and WRITE in
the order of their checks, and the one device an accepted WRITE stays in. -/

namespace Sys2Proof.Machine

/-! ## The address map -/

/-- Settles O17: an address above 0 is a type or a data register (`decodeAddr_cases`), and its device is below the count exactly
where the address is at or below `TOP`. -/
theorem addressDecodingIsABijection : Obligations.AddressDecodingIsABijection := by
  intro cfg t
  refine ⟨fun a h1 htop => ⟨addrOf_decodeAddr cfg a, ?_⟩, fun k hk => ?_, fun k j hk hj => ?_⟩
  · obtain ⟨h0, -⟩ | ⟨k, rfl, e⟩ | ⟨k, j, hj, rfl, e⟩ := decodeAddr_cases cfg a
    · omega
    · exact .inl ⟨k, device_lt_of_le_top cfg t (r := 0) htop, e⟩
    · exact .inr ⟨k, j, device_lt_of_le_top cfg t (r := 1 + j) (le_of_eq_of_le (by omega) htop), hj, e⟩
  · exact ⟨rfl, le_top_of_device_lt cfg t hk (Nat.zero_le _), decodeAddr_type cfg k⟩
  · have htop := le_top_of_device_lt cfg t hk (r := 1 + j) (by omega)
    exact ⟨rfl, le_of_eq_of_le (by rw [addrOf]; omega) htop, decodeAddr_data cfg k hj⟩

/-! ## The rejections of a READ -/

/-- A READ of no register or of more than 0x7B answers exception 0x03 (R124, R181). -/
theorem execRead_of_quantity_bad {s : State} {start qty : U16} (hv : s.cfg.valid = true)
    (hq : qty.toNat = 0 ∨ 0x7B < qty.toNat) :
    exec (.read start qty) s = .next (answered s (exceptionFrame s.cfg 0x03 0x03)) := by
  rw [execRead_eq hv, mapRead, quantityBad_eq_true hq]
  rfl

/-- Settles O19: the quantity check, then the range check. -/
theorem readRejections : Obligations.ReadRejections :=
  fun _ _ _ hv => ⟨execRead_of_quantity_bad hv, execRead_above_top hv⟩

/-! ## The rejections of a WRITE -/

section
variable {cfg : Config} {t : DeviceTable} {start qty : Nat} {values : List U16}

theorem mapWrite_of_quantity_bad (hq : qty = 0 ∨ 0x7B < qty) :
    mapWrite cfg t start qty values = .error .lengthError := by
  rw [mapWrite, quantityBad_eq_true hq, if_pos rfl]

theorem mapWrite_above_top (hq1 : 1 ≤ qty) (hq2 : qty ≤ 0x7B) (htop : top cfg t < start + qty - 1) :
    mapWrite cfg t start qty values = .error .addressError := by
  obtain ⟨hbad, -⟩ | ⟨-, -, -, e⟩ | ⟨-, -, hbad, -⟩ | ⟨-, -, hbad, -⟩ | ⟨-, -, hbad, -⟩ :=
    mapWrite_cases cfg t start qty values
  · omega
  · exact e
  all_goals omega

/-- A read-only register anywhere in the range is an address error, whether or not the range ends above `TOP` (R127, R187). -/
theorem mapWrite_of_readOnly (hq2 : qty ≤ 0x7B) {i : Nat} (hi : i < qty)
    (hro : readOnly cfg (start + i) = true) : mapWrite cfg t start qty values = .error .addressError := by
  obtain ⟨hbad, -⟩ | ⟨-, -, -, e⟩ | ⟨-, -, -, -, e⟩ | ⟨-, -, -, hdata, -⟩ | ⟨-, -, -, hdata, -⟩ :=
    mapWrite_cases cfg t start qty values
  · omega
  · exact e
  · exact e
  all_goals exact absurd hro (by simp [hdata i hi])

theorem mapWrite_of_highByte (hq1 : 1 ≤ qty) (hq2 : qty ≤ 0x7B) (htop : start + qty - 1 ≤ top cfg t)
    (hdata : ∀ i, i < qty → readOnly cfg (start + i) = false) (hhigh : ∃ v ∈ values, highByte v ≠ 0) :
    mapWrite cfg t start qty values = .error .valueError := by
  obtain ⟨hbad, -⟩ | ⟨-, -, hbad, -⟩ | ⟨-, -, -, ⟨i, hi, hro⟩, -⟩ | ⟨-, -, -, -, -, e⟩ | ⟨-, -, -, -, hzero, -⟩ :=
    mapWrite_cases cfg t start qty values
  · omega
  · omega
  · exact absurd hro (by simp [hdata i hi])
  · exact e
  · obtain ⟨v, hmem, hne⟩ := hhigh
    exact absurd (hzero v hmem) hne

end

/-- A mapper error becomes the exception of its code, and nothing else changes (R181). -/
theorem execWrite_of_mapError {s : State} {start qty : U16} {n : Byte} {values : List U16} {e : MapError}
    (hv : s.cfg.valid = true) (hw : (Instr.write start qty n values).wf s.cfg = true)
    (h : mapWrite s.cfg s.table start.toNat qty.toNat values = .error e) :
    exec (.write start qty n values) s = .next (answered s (exceptionFrame s.cfg 0x10 (codeByte (errorCode e)))) := by
  rw [execWrite_eq hv start qty n values hw, h]

/-- Settles O25: each premise is the one check of the mapper that fails first. -/
theorem writeRejectionsInOrder : Obligations.WriteRejectionsInOrder := by
  intro s start qty n values hv hn hlen
  have hw : (Instr.write start qty n values).wf s.cfg = true := by simp [Instr.wf, hn, hlen]
  refine ⟨fun hq => execWrite_of_mapError hv hw (mapWrite_of_quantity_bad hq), fun hq1 hq2 =>
    ⟨fun htop => execWrite_of_mapError hv hw (mapWrite_above_top hq1 hq2 htop), fun htop => ⟨?_, ?_⟩⟩⟩
  · rintro ⟨i, hi, haddr⟩
    exact execWrite_of_mapError hv hw (mapWrite_of_readOnly hq2 hi ((readOnly_eq_true_iff s.cfg _).mpr haddr))
  · intro hwritable hhigh
    have hdata : ∀ i, i < qty.toNat → readOnly s.cfg (start.toNat + i) = false := fun i hi => by
      rw [← Bool.not_eq_true, readOnly_eq_true_iff, not_or]
      exact hwritable i hi
    exact execWrite_of_mapError hv hw (mapWrite_of_highByte hq1 hq2 htop hdata hhigh)

/-! ## The accepted WRITE -/

/-- The echo of a WRITE is no exception response: it is one byte longer (R81, R83). -/
theorem frameOut_writeEcho_ne_exceptionFrame (cfg : Config) (start qty : U16) (fc code : Byte) :
    frameOut cfg ([cfg.slaveAddr, 0x10] ++ split16 start ++ split16 qty) ≠ exceptionFrame cfg fc code := by
  intro h
  have hlen := congrArg List.length h
  simp [exceptionFrame] at hlen

/-- A WRITE that answers its echo has passed the quantity, range and read-only checks (R127, R186). -/
theorem execWrite_echo_checks {s t : State} {start qty : U16} {n : Byte} {values : List U16}
    (h : exec (.write start qty n values) s = .next t)
    (hecho : t.outputs = s.outputs ++
      [.response (frameOut s.cfg ([s.cfg.slaveAddr, 0x10] ++ split16 start ++ split16 qty))]) :
    1 ≤ qty.toNat ∧ start.toNat + qty.toNat - 1 ≤ top s.cfg s.table ∧
      ∀ i, i < qty.toNat → readOnly s.cfg (start.toNat + i) = false := by
  obtain ⟨hv, hw⟩ := exec_next_guard h
  have hrejected : ∀ code, exec (.write start qty n values) s ≠ .next (answered s (exceptionFrame s.cfg 0x10 code)) := by
    intro code e
    cases h.symm.trans e
    exact frameOut_writeEcho_ne_exceptionFrame s.cfg start qty 0x10 code (by simpa using hecho.symm)
  obtain ⟨-, e⟩ | ⟨-, -, -, e⟩ | ⟨-, -, -, -, e⟩ | ⟨-, -, -, -, -, e⟩ | ⟨hq, -, htop, hdata, -, -⟩ :=
    execWrite_cases hv start qty n values hw
  case inr.inr.inr.inr => exact ⟨hq, htop, hdata⟩
  all_goals exact absurd e (hrejected _)

/-- Settles O27: a range of data registers lies in one block (`range_in_one_block`), and `TOP` bounds its device. -/
theorem acceptedWritesStayInOneDevice : Obligations.AcceptedWritesStayInOneDevice := by
  intro s t start qty n values h hecho
  obtain ⟨hq, htop, hdata⟩ := execWrite_echo_checks h hecho
  obtain ⟨k, hfirst, hlast⟩ := range_in_one_block s.cfg hq hdata
  have hk : k < s.table.count := device_lt_of_le_top s.cfg s.table (r := 1) (by omega)
  rw [Config.blockSize] at hfirst hlast
  refine ⟨by omega, k, hk, hfirst, ?_⟩
  rw [Nat.add_mul]
  omega

end Sys2Proof.Machine

/-! PROOFS. The frame validator (42_frame_validator.md R150 to R161): which frames it discards, which it answers with an exception
for their shape, which it hands on, and the step on each of the three. -/

namespace Sys2Proof.Machine

/-! ## Discarded frames -/

/-- A frame is discarded exactly where its body does not start with `SLAVE_ADDR` and a function byte. -/
theorem decodeFrame_discard_iff (cfg : Config) (frame : List Byte) :
    (∃ why, decodeFrame cfg frame = .discard why) ↔
      ¬∃ fc ops, stripCrc cfg frame = some (cfg.slaveAddr :: fc :: ops) := by
  obtain ⟨why, hd, hno⟩ | ⟨fc, ops, hstrip, hd⟩ := decodeFrame_cases cfg frame
  · exact iff_of_true ⟨why, hd⟩ hno
  · refine iff_of_false ?_ (not_not_intro ⟨fc, ops, hstrip⟩)
    rintro ⟨why, hwhy⟩
    exact decodeFunction_ne_discard fc ops why (hd.symm.trans hwhy)

/-- A body starts with the address and a function byte exactly where it has two bytes and the first is the address (R152,
R153). -/
theorem exists_eq_cons_cons_iff (a : Byte) (body : List Byte) :
    (∃ fc ops, body = a :: fc :: ops) ↔ 2 ≤ body.length ∧ body.head? = some a := by
  match body with
  | [] => simp
  | [b] => simp
  | b :: fc :: ops => simp

/-- Settles O8: what `decodeFrame_discard_iff` says, split into the CRC stage and the body it hands on. -/
theorem discardedExactlyWhenUnaddressed : Obligations.DiscardedExactlyWhenUnaddressed := by
  intro cfg frame
  rw [decodeFrame_discard_iff]
  cases stripCrc cfg frame with
  | none => simp
  | some body =>
    have hbody : (¬∃ fc ops, body = cfg.slaveAddr :: fc :: ops) ↔
        body.length < 2 ∨ body.head? ≠ some cfg.slaveAddr := by
      rw [exists_eq_cons_cons_iff, not_and_or, Nat.not_le]
    simpa using hbody

/-! ## The function stages -/

/-- Settles O5: the validator hands on only what the function stages do (`decodeFrame_cases`). -/
theorem decodedRequestsAreWellFormed : Obligations.DecodedRequestsAreWellFormed := by
  intro cfg frame i h
  obtain ⟨_, hd, -⟩ | ⟨_, _, -, hd⟩ := decodeFrame_cases cfg frame
  · cases hd.symm.trans h
  · exact decodeFunction_request_wf cfg (hd.symm.trans h)

/-- Operands of 0x03 and 0x2B of any length but six have a wrong shape (R157). -/
theorem decodeFunction_fixed_badShape {fc : Byte} {ops : List Byte} (hfc : fc = 0x03 ∨ fc = 0x2B) (hlen : ops.length ≠ 6) :
    decodeFunction fc ops = .badShape fc := by
  obtain rfl | rfl := hfc
  · simp [decodeFunction, decodeRead_eq_none_of_length hlen]
  · simp [decodeFunction, decodeIdentify_eq_none_of_length hlen]

/-- Any six operand bytes of 0x03 and 0x2B are a request (R157). -/
theorem decodeFunction_fixed_request {fc : Byte} {ops : List Byte} (hfc : fc = 0x03 ∨ fc = 0x2B) (hlen : ops.length = 6) :
    ∃ i, decodeFunction fc ops = .request i := by
  match ops, hlen with
  | [b0, b1, b2, b3, b4, b5], _ =>
    obtain rfl | rfl := hfc
    · exact ⟨.read (be16 b0 b1) (be16 b2 b3), rfl⟩
    · exact ⟨.identify b0 b1 b2, rfl⟩

/-- Operands of 0x10 whose lengths agree in no reading of their header have a wrong shape (R158). -/
theorem decodeFunction_write_badShape {ops : List Byte}
    (h : ∀ (s1 s0 q1 q0 n : Byte) (data : List Byte), ops = [s1, s0, q1, q0, n] ++ data →
      data.length ≠ n.toNat ∨ n.toNat ≠ 2 * (q1.toNat * 256 + q0.toNat)) :
    decodeFunction 0x10 ops = .badShape 0x10 := by
  have hnone : decodeWrite ops = none := by
    rw [Option.eq_none_iff_forall_ne_some]
    intro i hi
    obtain ⟨s1, s0, q1, q0, n, data, hops, hlen, hn, -⟩ := (decodeWrite_eq_some_iff ops i).mp hi
    rw [be16_toNat] at hn
    exact (h s1 s0 q1 q0 n data hops).elim (· hlen) (· hn)
  simp [decodeFunction, hnone]

/-- Any other function byte is handed on as UNSUPPORTED, whatever follows it (R156). -/
theorem decodeFunction_unsupported {fc : Byte} (h03 : fc ≠ 0x03) (h10 : fc ≠ 0x10) (h2B : fc ≠ 0x2B) (ops : List Byte) :
    decodeFunction fc ops = .request (.unsupported fc) := by
  rw [decodeFunction, if_neg h03, if_neg h10, if_neg h2B]

/-! ## The step on a frame -/

section
variable {s : State} {frame : List Byte} {rest : List Event}

/-- Everything a step whose next event is a frame can do (R180): the cases of `runFrame_cases`. -/
theorem step_frame_cases (hv : s.cfg.valid = true) (hp : s.pending = .delivered (.frame frame) :: rest) :
    (∃ why, decodeFrame s.cfg frame = .discard why ∧
      step s = .next { afterTaking s (.delivered (.frame frame)) rest with
        phase := .ready, outputs := s.outputs ++ [.nothing] }) ∨
    (∃ fc, decodeFrame s.cfg frame = .badShape fc ∧
      step s = .next (answered (afterTaking s (.delivered (.frame frame)) rest) (exceptionFrame s.cfg fc 0x03))) ∨
    (∃ i, decodeFrame s.cfg frame = .request i ∧
      step s = exec i { afterTaking s (.delivered (.frame frame)) rest with phase := .validating }) := by
  rw [step_of_pending hv hp]
  exact runFrame_cases (s := afterTaking s (.delivered (.frame frame)) rest) hv frame

/-- The step on a frame of a wrong shape answers exception 0x03 (R157, R158). -/
theorem step_of_badShape {fc : Byte} (hv : s.cfg.valid = true) (hp : s.pending = .delivered (.frame frame) :: rest)
    (hd : decodeFrame s.cfg frame = .badShape fc) :
    step s = .next (answered (afterTaking s (.delivered (.frame frame)) rest) (exceptionFrame s.cfg fc 0x03)) := by
  obtain ⟨_, hd', -⟩ | ⟨_, hd', hstep⟩ | ⟨_, hd', -⟩ := step_frame_cases hv hp
  · cases hd.symm.trans hd'
  · cases hd.symm.trans hd'
    exact hstep
  · cases hd.symm.trans hd'

end

/-- Settles O11: the first case of `step_frame_cases`. -/
theorem discardChangesNothing : Obligations.DiscardChangesNothing := by
  intro s frame rest why hv hp hd
  obtain ⟨_, -, hstep⟩ | ⟨_, hd', -⟩ | ⟨_, hd', -⟩ := step_frame_cases hv hp
  · exact hstep
  · cases hd.symm.trans hd'
  · cases hd.symm.trans hd'

/-- Settles O12: after the address and the function byte, 8 bytes leave six operand bytes. -/
theorem fixedShapeBodiesMustBeEightBytes : Obligations.FixedShapeBodiesMustBeEightBytes := by
  intro s frame operands fc rest hv hp hstrip hfc
  have hd := decodeFrame_of_addressed hstrip
  constructor
  · intro hlen
    exact step_of_badShape hv hp (hd.trans (decodeFunction_fixed_badShape hfc (by omega)))
  · intro hlen
    obtain ⟨i, hi⟩ := decodeFunction_fixed_request (ops := operands) hfc (by omega)
    exact ⟨i, hd.trans hi, stepRunsTheDecodedRequest s frame rest i hv hp (hd.trans hi)⟩

/-- Settles O13: no reading of the operands meets R158, so the shape is wrong (`decodeFunction_write_badShape`). -/
theorem writeBodyLengthsMustAgree : Obligations.WriteBodyLengthsMustAgree := by
  intro s frame operands rest hv hp hstrip hbad
  exact step_of_badShape hv hp ((decodeFrame_of_addressed hstrip).trans (decodeFunction_write_badShape hbad))

/-- Settles O15: UNSUPPORTED of such a function byte is what the function stages hand on, so it is well formed. -/
theorem unsupportedCompletes : Obligations.UnsupportedCompletes := by
  intro s fc hv h03 h10 h2B
  exact execUnsupported_eq hv (decodeFunction_request_wf s.cfg (decodeFunction_unsupported h03 h10 h2B [])).1

/-- Settles O14: the step runs UNSUPPORTED (`unsupportedCompletes`). -/
theorem unsupportedFunctionAnswersOne : Obligations.UnsupportedFunctionAnswersOne := by
  intro s frame operands fc rest hv hp hstrip h03 h10 h2B
  have hd := (decodeFrame_of_addressed hstrip).trans (decodeFunction_unsupported h03 h10 h2B operands)
  exact (stepRunsTheDecodedRequest s frame rest _ hv hp hd).trans (unsupportedCompletes _ fc hv h03 h10 h2B)

/-- Settles O50: the step answers (`runEvent_of_wf_table`), and its one output is a response exactly where the frame was
addressed (`runFrame_next`). -/
theorem answeredExactlyWhenAddressed : Obligations.AnsweredExactlyWhenAddressed := by
  intro s frame rest hv ht hp
  have hstep := step_of_pending hv hp
  obtain ⟨t, hrun⟩ := runEvent_of_wf_table (s := afterTaking s _ rest) (e := .delivered (.frame frame)) hv ht rfl
  refine ⟨t, hstep.trans hrun, ?_⟩
  obtain ⟨-, -, -, -, -, -, -, -, ⟨-, houts, hno⟩ | ⟨fc, ops, r, hstrip, houts, -⟩⟩ :=
    runFrame_next (s := afterTaking s _ rest) hv hrun
  · exact ⟨fun haddr => absurd haddr hno, fun _ => houts⟩
  · exact ⟨fun _ => ⟨_, houts⟩, fun hno => absurd ⟨fc, ops, hstrip⟩ hno⟩

end Sys2Proof.Machine

/-! PROOFS. The dispatcher (43_dispatcher.md R180 to R190): the read-only registers of a WRITE, what an update does to registers a
master wrote, the first frame after reset, and the table under an exception. -/

namespace Sys2Proof.Machine

/-! ## A WRITE that touches a read-only register -/

@[simp] theorem readOnly_zero (cfg : Config) : readOnly cfg 0 = true := rfl

/-- The first register of every block is read-only, whether or not a device is stored there (R60). -/
theorem readOnly_type (cfg : Config) (k : Nat) : readOnly cfg (1 + k * cfg.blockSize) = true := by
  rw [readOnly, decodeAddr_type]

/-- A WRITE of good quantity with a read-only register in its range answers exception 0x02 (R187). -/
theorem execWrite_of_readOnly {s : State} {start qty : U16} {n : Byte} {values : List U16} (hv : s.cfg.valid = true)
    (hn : n.toNat = 2 * qty.toNat) (hlen : values.length = qty.toNat) (hq2 : qty.toNat ≤ 0x7B) {i : Nat}
    (hi : i < qty.toNat) (hro : readOnly s.cfg (start.toNat + i) = true) :
    exec (.write start qty n values) s = .next (answered s (exceptionFrame s.cfg 0x10 0x02)) :=
  execWrite_of_mapError hv (by simp [Instr.wf, hn, hlen]) (mapWrite_of_readOnly hq2 hi hro)

/-- Settles O26: register 0 and every type register are read-only (`readOnly_type`). -/
theorem writeTouchingReadOnlyAnswersBadAddress : Obligations.WriteTouchingReadOnlyAnswersBadAddress := by
  intro s start qty n values i hv hn hlen hq2 hi haddr
  refine execWrite_of_readOnly hv hn hlen hq2 hi ?_
  obtain h0 | ⟨k, hk⟩ := haddr
  · rw [h0, readOnly_zero]
  · rw [hk]
    exact readOnly_type s.cfg k

/-! ## An update over a master's writes -/

/-- An update is what `read` gives of its slot (R101, R105). -/
theorem readSlot_putSlot_self {t : DeviceTable} {k : Nat} (sl : Slot) (hk : k < t.count) (hlen : k < t.slots.length) :
    readSlot (putSlot t k sl) k = .ok sl :=
  (readSlot_eq_ok_iff _ k sl).mpr ⟨hk, slotAt_putSlot_self sl hlen⟩

/-- Settles O37: the update puts the advertised record into slot `k` (`appendOrUpdate_known`), and the registers of the device are
read from that record. -/
theorem updateOverwritesMasterWrites : Obligations.UpdateOverwritesMasterWrites := by
  intro s t identity typ data k ht hk hid h
  obtain ⟨hd, table, r, htable, rfl⟩ := execAppendOrUpdate_next h
  cases htable.symm.trans (ht.appendOrUpdate_known hk hid typ data)
  obtain ⟨_, -, hslot, -⟩ := ht.readSlot_ok hk
  have hread := readSlot_putSlot_self ⟨identity, typ, data⟩ hk (lt_length_of_slotAt hslot)
  refine ⟨regRead_type s.cfg _ hread, fun j b hb => ?_⟩
  have hj : j < s.cfg.dataLen := hd ▸ (List.getElem?_eq_some_iff.mp hb).1
  exact regRead_data s.cfg _ hread hj hb

/-! ## The first frame after reset -/

/-- READCOUNT completes in every state with the count in register 0 (R60, R87, R182). -/
theorem execReadCount_eq {s : State} (hv : s.cfg.valid = true) :
    exec readCount s = .next (answered s (frameOut s.cfg
      ([s.cfg.slaveAddr, 0x03, 0x02, 0x00] ++ split16 (BitVec.ofNat 16 s.table.count)))) := by
  have h8 := respBufLen_of_valid hv
  have h2 := crcLength_le_two s.cfg
  have hfits : 4 + 2 * (1 : U16).toNat + crcLength s.cfg ≤ s.cfg.respBufLen := by
    change 6 + crcLength s.cfg ≤ s.cfg.respBufLen
    omega
  have hregs : regsRead s.cfg s.table 0 1 = .ok [BitVec.ofNat 16 s.table.count] := rfl
  exact execRead_of_regsRead (start := 0) (qty := 1) hv (by decide) (by decide) (Nat.zero_le _) hfits hregs

/-- The table has no register but register 0 right after reset (R122, R281). -/
theorem top_resetWith (cfg : Config) : top (State.resetWith cfg).cfg (State.resetWith cfg).table = 0 := Nat.zero_mul _

/-- Settles O41: `TOP` is 0, so a range that is not register 0 alone ends above it, and register 0 alone is read-only. -/
theorem firstFrameAfterResetSeesAnEmptyTable : Obligations.FirstFrameAfterResetSeesAnEmptyTable := by
  intro cfg hv
  have hs : (State.resetWith cfg).cfg.valid = true := hv
  have htop := top_resetWith cfg
  have hcount : split16 (BitVec.ofNat 16 (State.resetWith cfg).table.count) = [0x00, 0x00] := by
    change split16 0 = _
    decide
  have hread := execReadCount_eq hs
  rw [hcount] at hread
  refine ⟨hread, fun start qty hq1 hq2 => ⟨fun hrange => ?_, fun n values hn hlen => ?_⟩⟩
  · exact execRead_above_top hs hq1 hq2 (by omega)
  · by_cases h0 : start.toNat = 0
    · exact execWrite_of_readOnly hs hn hlen hq2 hq1 (by rw [h0, readOnly_zero])
    · exact execWrite_of_mapError hs (by simp [Instr.wf, hn, hlen]) (mapWrite_above_top hq1 hq2 (by omega))

/-! ## The table under an exception -/

/-- The echo of a WRITE carries function byte 0x10 (R81). -/
theorem stripCrc_build_writeOk {cfg : Config} (hv : cfg.valid = true) (start qty : U16) :
    stripCrc cfg (build cfg 0x10 (.writeOk (highByte start) (lowByte start) (highByte qty) (lowByte qty))) =
      some ([cfg.slaveAddr, 0x10] ++ split16 start ++ split16 qty) := by
  rw [build_writeOk hv, stripCrc_frameOut]

/-- Settles O54: a frame changes the table only under the echo of a WRITE (`runFrame_next`), and bit 7 of 0x10 is clear. -/
theorem exceptionsLeaveTheTableAlone : Obligations.ExceptionsLeaveTheTableAlone := by
  intro s t frame bytes body f rest hp h hresp hstrip hf hbit
  obtain ⟨hv, hrun⟩ := step_frame_next hp h
  obtain ⟨-, -, -, -, -, -, -, -, ⟨hkept, -⟩ | ⟨fc, _, r, -, houts, -, hkept | ⟨rfl, start, qty, rfl⟩⟩⟩ :=
    runFrame_next (s := afterTaking s _ rest) hv hrun
  · exact hkept
  · exact hkept
  · obtain rfl : build s.cfg 0x10 _ = bytes := by simpa using houts.symm.trans hresp
    cases hstrip.symm.trans (stripCrc_build_writeOk hv start qty)
    cases hf
    exact absurd hbit (by decide)

end Sys2Proof.Machine

/-! PROOFS. The response builder (44_response_builder.md R230 to R235): the READ whose response its capacity check replaces. -/

namespace Sys2Proof.Machine

/-- A read pass that both checks admit answers the registers of its range (R125). -/
theorem mapRead_of_regsRead {cfg : Config} {t : DeviceTable} {start qty : Nat} {regs : List U16} (hq1 : 1 ≤ qty)
    (hq2 : qty ≤ 0x7B) (htop : start + qty - 1 ≤ top cfg t) (hregs : regsRead cfg t start qty = .ok regs) :
    mapRead cfg t start qty = .ok regs := by
  have hrange : rangeBad cfg t start qty = false := decide_eq_false htop.not_gt
  simp [mapRead, quantityBad_eq_false (qty := qty) (by omega), hrange, hregs]

/-- The body of RS_READ is four bytes before its payload (R80). -/
@[simp] theorem replyBody_readOk_length (cfg : Config) (fc : Byte) (qty : Nat) (payload : List Byte) :
    (replyBody cfg fc (.readOk qty payload)).length = 4 + payload.length :=
  Nat.add_comm payload.length 4

/-- Settles O20: the range reads (`mapRead_of_regsRead`), and the capacity check puts exception 0x04 in place of the response
(`build_of_not_fits`). -/
theorem oversizedReadAnswersOther : Obligations.OversizedReadAnswersOther := by
  intro s start qty hv ht hq1 hq2 htop hbig
  obtain ⟨regs, hregs⟩ := regsRead_ok_of_le_top ht qty.toNat start.toNat (.inr htop)
  have hlen : regs.length = qty.toNat := ((regsRead_eq_ok_iff s.cfg s.table _ _ _).mp hregs).1
  have hbuild : build s.cfg 0x03 (.readOk qty.toNat (split16s regs)) = exceptionFrame s.cfg 0x03 0x04 :=
    build_of_not_fits _ _ (by rwa [replyBody_readOk_length, split16s_length, hlen])
  rw [execRead_eq hv, mapRead_of_regsRead hq1 hq2 htop hregs, ← hbuild]

end Sys2Proof.Machine

/-! PROOFS. Reset (70_reset_and_hazards.md R280): the delivery a reset cuts short. -/

namespace Sys2Proof.Machine

/-- No delivery reads the log of the events taken: with another log it completes alike, and keeps that log. -/
theorem runDelivery_next_with_taken {s t : State} (hv : s.cfg.valid = true) {d : Delivery} (log : List Event)
    (h : runDelivery d s = .next t) : runDelivery d { s with taken := log } = .next { t with taken := log } := by
  cases d with
  | frame bytes =>
    change runFrame bytes s = _ at h
    obtain ⟨o, table, hall⟩ | ⟨f, hall⟩ := runFrame_uniform s.table hv bytes <;> rw [hall s rfl rfl] at h <;> cases h
    exact hall { s with taken := log } rfl rfl
  | appendOrUpdate identity typ data =>
    obtain ⟨hd, table, r, htable, rfl⟩ := execAppendOrUpdate_next h
    exact (execAppendOrUpdate_eq (s := { s with taken := log }) hv identity typ hd).trans (by simp only [htable])
  | clear =>
    cases h.symm.trans (execClear_eq hv)
    exact execClear_eq (s := { s with taken := log }) hv

/-- A transaction that would complete is cut to the reset state, with the delivery's output or none (R280). -/
theorem cutByReset_of_next {s t : State} {d : Delivery} (h : runDelivery d s = .next t) (answeredFirst : Bool) :
    cutByReset d answeredFirst s = .next (resetState { t with
      outputs := if answeredFirst then t.outputs else s.outputs ++ [.nothing] }) := by
  simp only [cutByReset, h]

/-- Settles O40: on a well-formed table the delivery completes (`runDelivery_of_wf_table`), and it completes alike whichever
event the log names (`runDelivery_next_with_taken`). -/
theorem resetInFlightAdmitsBothOutcomes : Obligations.ResetInFlightAdmitsBothOutcomes := by
  rintro s d rest answeredFirst ⟨hv, hw, -⟩ hd hp
  obtain ⟨u, hrun⟩ := runDelivery_of_wf_table (s := afterTaking s (.cutByReset d answeredFirst) rest) hv hw hd
  obtain ⟨hcfg, hpending, -⟩ := runDelivery_next (s := afterTaking s _ rest) hv hrun
  have hcut := (step_of_pending hv hp).trans (cutByReset_of_next hrun answeredFirst)
  have hlog := runDelivery_next_with_taken (s := afterTaking s _ rest) hv (s.taken ++ [.delivered d]) hrun
  have hdelivered :=
    (step_of_pending (s := { s with pending := .delivered d :: rest }) (e := .delivered d) hv rfl).trans hlog
  exact ⟨_, _, hcut, hdelivered, hcfg, congrArg DeviceTable.empty hcfg, rfl, hpending, rfl⟩

end Sys2Proof.Machine
